-- ==== Sys2Proof/Word.lean ====
section
/-!
DEFINITION. The words of the ProtocolDecoder: the widths of rule R21 of 10_state.md and the
widths of the formats of rule R81 of 30_encoding.md. The registers written here are what the spec
counts, shifts or shows at a port; a line level is a Bool, true for high (rule R78).
-/

namespace Sys2Proof

/-- A level of the line: `true` is 1 (high), `false` is 0 (low) (30_encoding.md R78). -/
abbrev Level := Bool

/-- The tick counter `tcnt[15:0]` (10_state.md R24). -/
abbrev TickCount := BitVec 16

/-- The bit counter `bitcnt[5:0]` (10_state.md R25). -/
abbrev BitCount := BitVec 6

/-- The frame register `sr[39:0]` (10_state.md R33, 30_encoding.md R74). -/
abbrev Frame := BitVec 40

/-- One byte of the frame (20_memory.md R51). -/
abbrev FrameByte := BitVec 8

/-- A result word, format HUM or TEMP (30_encoding.md R75, R76). -/
abbrev Result := BitVec 16

/-- The outcome code, format ERR (30_encoding.md R73). -/
abbrev ErrCode := BitVec 2

/-- The state code, format ST (30_encoding.md R70). -/
abbrev StWord := BitVec 4

/-- The host input word, format HOSTIN: bit 1 is `rst`, bit 0 is `start` (30_encoding.md R77). -/
abbrev HostinWord := BitVec 2

end Sys2Proof
end

