-- ==== Sys2Proof/Config.lean ====
section
/-!
DEFINITION. What a build of the block fixes (the parameters of 00_scope.md R9), the constants that
follow from them, and the free values: what the spec leaves to the environment or says holds any
value. A free value is an opaque constant with no body, so no proof can learn what it is.
-/

namespace Sys2Proof

/-- The build-time parameters of 00_scope.md R9 that a builder may choose. -/
structure Params where
  /-- `TRIGGER_LOW_MS`, the trigger's low-hold time in milliseconds. -/
  triggerLowMs : Nat
  /-- `HS_TIMEOUT_US`, samples allowed for the sensor's acknowledgment. -/
  hsTimeoutUs : Nat
  /-- `EDGE_TIMEOUT_US`, samples allowed per awaited edge. -/
  edgeTimeoutUs : Nat
  /-- `SAMPLE_DELAY_US`, ticks from the detected rise to the bit sample. -/
  sampleDelayUs : Nat
  /-- `ACK_HIGH_PHASE`, 1 if the handshake also consumes the sensor's high pulse. -/
  ackHighPhase : Nat
deriving DecidableEq, Repr

/-- The values this hardware takes (00_scope.md R9, value column; 92_eei_decisions.md D4, D5). -/
def Params.decided : Params where
  triggerLowMs := 18
  hsTimeoutUs := 200
  edgeTimeoutUs := 200
  sampleDelayUs := 30
  ackHighPhase := 1

/-- `TRIG_TICKS = TRIGGER_LOW_MS * 1000` (00_scope.md R10). -/
def Params.trigTicks (p : Params) : Nat := p.triggerLowMs * 1000

/-- `FRAME_BITS`, fixed (00_scope.md R9). -/
def Config.frameBits : Nat := 40

/-- `CNT_W`, the width of `tcnt`, fixed (00_scope.md R9). -/
def Config.cntW : Nat := 16

/-- `TICK_US`, the tick period in microseconds, fixed (00_scope.md R9). -/
def Config.tickUs : Nat := 1

/-- `D_MAX`, the most enabled edges a read takes, its START edge and its completion edge both
counted (60_exceptions.md R163). -/
def Params.dMax (p : Params) : Nat :=
  3 + p.trigTicks + p.hsTimeoutUs + (80 + 2 * p.ackHighPhase) * p.edgeTimeoutUs
    + 40 * p.sampleDelayUs

/-- The enabled edges of a read whose sensor never acknowledges (60_exceptions.md R163). -/
def Params.noResponseEdges (p : Params) : Nat := 2 + p.trigTicks + p.hsTimeoutUs

/-- The enabled edges of the shortest successful read (60_exceptions.md R163). -/
def Params.shortestRead (p : Params) : Nat :=
  3 + p.trigTicks + 1 + 2 * p.ackHighPhase + 40 * (1 + p.sampleDelayUs)

/-! ## Free inputs

What the host, the board and the sensor present at `clk` edge number `n`, where the state's own
schedule says nothing (00_scope.md R8: "a free input, under no law"; 93_implementation_defined.md
U8, U12, U14, U17). -/

/-- `rst` at edge `n`, unconstrained. -/
opaque Config.freeRst : Nat → Bool

/-- `tick` at edge `n`, unconstrained. -/
opaque Config.freeTick : Nat → Bool

/-- `start` at edge `n`, unconstrained. -/
opaque Config.freeStart : Nat → Bool

/-- `line_i` at edge `n`, unconstrained. -/
opaque Config.freeLine : Nat → Level

/-! ## Power-up values

"Before the first reset edge after power-up, every register holds an unspecified value"
(70_reset_and_hazards.md R192; 93_implementation_defined.md U9). -/

/-- `st` at power-up, unconstrained. -/
opaque Config.powerUpSt : StWord

/-- `tcnt` at power-up, unconstrained. -/
opaque Config.powerUpTcnt : TickCount

/-- `bitcnt` at power-up, unconstrained. -/
opaque Config.powerUpBitcnt : BitCount

/-- `sr` at power-up, unconstrained. -/
opaque Config.powerUpSr : Frame

/-- `done` at power-up, unconstrained. -/
opaque Config.powerUpDone : Bool

/-- `err` at power-up, unconstrained. -/
opaque Config.powerUpErr : ErrCode

/-- `hum` at power-up, unconstrained. -/
opaque Config.powerUpHum : Result

/-- `temp` at power-up, unconstrained. -/
opaque Config.powerUpTemp : Result

/-! ## Open host-side parameters -/

/-- `MIN_READ_INTERVAL_US`, OPEN (70_reset_and_hazards.md R194; 92_eei_decisions.md D20): the host's
duty, read by no rule of the block. -/
opaque Config.minReadIntervalUs : Nat

/-- `SENSOR_POWERUP_US`, OPEN (70_reset_and_hazards.md R193; 92_eei_decisions.md D21): the host's
duty, read by no rule of the block. -/
opaque Config.sensorPowerupUs : Nat

end Sys2Proof
end

