-- ==== Sys2Proof/Syntax.lean ====
section
/-!
DEFINITION. The names of the block: its state codes (30_encoding.md R70), its operations (one
constructor of `Instr` per row of opcode_table.json), its error kinds (60_exceptions.md R160) and the
two formats an operation is selected from (R70, R77). The encodings stand in Decode.
-/

namespace Sys2Proof

/-- The sixteen values of the state register `st[3:0]` (30_encoding.md R70): ten states and the six
unused codes of rule R72. -/
inductive St where
  | idle | trig | rel | hsAck | hsRise | hsFall | bitRise | bitDly | bitFall | check
  | illA | illB | illC | illD | illE | illF
deriving DecidableEq, Repr

/-- The operations an enabled edge can perform: the rows of opcode_table.json in its order. No row
has an operand field; operands are the registers, the parameters and the sampled inputs. -/
inductive Instr where
  /-- ST 0x0, 41_handshake.md R112. -/
  | idle
  /-- ST 0x1, 41_handshake.md R113. -/
  | trig
  /-- ST 0x2, 41_handshake.md R114. -/
  | rel
  /-- ST 0x3, 41_handshake.md R115. -/
  | hsAck
  /-- ST 0x4, 41_handshake.md R116. -/
  | hsRise
  /-- ST 0x5, 41_handshake.md R117. -/
  | hsFall
  /-- ST 0x6, 42_bit_sampler.md R130. -/
  | bitRise
  /-- ST 0x7, 42_bit_sampler.md R131. -/
  | bitDly
  /-- ST 0x8, 42_bit_sampler.md R132. -/
  | bitFall
  /-- ST 0x9, 43_validate.md R140. -/
  | check
  /-- ST 0xA, 30_encoding.md R72. -/
  | illA
  /-- ST 0xB, 30_encoding.md R72. -/
  | illB
  /-- ST 0xC, 30_encoding.md R72. -/
  | illC
  /-- ST 0xD, 30_encoding.md R72. -/
  | illD
  /-- ST 0xE, 30_encoding.md R72. -/
  | illE
  /-- ST 0xF, 30_encoding.md R72. -/
  | illF
  /-- HOSTIN 01, 40_host_interface.md R100 and R101. -/
  | start
  /-- HOSTIN 1x, 70_reset_and_hazards.md R190. -/
  | reset
deriving DecidableEq, Repr

/-- The three error kinds (60_exceptions.md R160). -/
inductive ErrKind where
  | noResponse | timeout | checksumFailed
deriving DecidableEq, Repr

/-- A word an operation is selected from: a state code (format ST) or the host's input word (format
HOSTIN) (30_encoding.md R70, R77, R81). -/
inductive OpWord where
  | st (w : StWord)
  | hostin (w : HostinWord)
deriving DecidableEq, Repr

/-- Why a word selects no operation of its own. -/
inductive DecodeError where
  /-- HOSTIN 00 names no host operation: "the state's own operation runs" (30_encoding.md R77). -/
  | noHostOperation
deriving DecidableEq, Repr

end Sys2Proof
end

