-- ==== Sys2Proof/WellFormed.lean ====
section
/-!
DEFINITION. What a legal build is (00_scope.md R9, R11). The operations of `Instr` have no operands,
so every term of `Instr` is well formed; what can be ill formed on this hardware is the parameter set.
-/

namespace Sys2Proof

/-- The legal ranges of 00_scope.md R9: a parameter set outside them is refused (R11). -/
def Params.legal (p : Params) : Bool :=
  decide (18 ≤ p.triggerLowMs) && decide (p.triggerLowMs ≤ 65)
    && decide (1 ≤ p.hsTimeoutUs) && decide (p.hsTimeoutUs ≤ 65535)
    && decide (1 ≤ p.edgeTimeoutUs) && decide (p.edgeTimeoutUs ≤ 65535)
    && decide (1 ≤ p.sampleDelayUs) && decide (p.sampleDelayUs ≤ 65535)
    && decide (p.ackHighPhase ≤ 1)

end Sys2Proof
end

