-- ==== Sys2Proof/Decode.lean ====
section
/-!
DEFINITION. The encodings of 30_encoding.md: the state codes (R70), the outcome codes (R73), the
operation an ST word selects (R71), the operation a HOSTIN word selects (R77), the selection at an
edge (R71, R77, R165), and the encoder. Decoding an ST word is total; a HOSTIN word that names no
host operation is rejected by name.
-/

namespace Sys2Proof

/-- The code of a state (30_encoding.md R70). -/
def stBits : St → StWord
  | .idle => 0x0#4
  | .trig => 0x1#4
  | .rel => 0x2#4
  | .hsAck => 0x3#4
  | .hsRise => 0x4#4
  | .hsFall => 0x5#4
  | .bitRise => 0x6#4
  | .bitDly => 0x7#4
  | .bitFall => 0x8#4
  | .check => 0x9#4
  | .illA => 0xA#4
  | .illB => 0xB#4
  | .illC => 0xC#4
  | .illD => 0xD#4
  | .illE => 0xE#4
  | .illF => 0xF#4

/-- The state of a code, all sixteen of them (30_encoding.md R70). -/
def stOfBits (w : StWord) : St :=
  match w.toNat with
  | 0x0 => .idle
  | 0x1 => .trig
  | 0x2 => .rel
  | 0x3 => .hsAck
  | 0x4 => .hsRise
  | 0x5 => .hsFall
  | 0x6 => .bitRise
  | 0x7 => .bitDly
  | 0x8 => .bitFall
  | 0x9 => .check
  | 0xA => .illA
  | 0xB => .illB
  | 0xC => .illC
  | 0xD => .illD
  | 0xE => .illE
  | _ => .illF

/-- `OpOf(st)`: the operation a state performs (30_encoding.md R70, R71). -/
def opOf : St → Instr
  | .idle => .idle
  | .trig => .trig
  | .rel => .rel
  | .hsAck => .hsAck
  | .hsRise => .hsRise
  | .hsFall => .hsFall
  | .bitRise => .bitRise
  | .bitDly => .bitDly
  | .bitFall => .bitFall
  | .check => .check
  | .illA => .illA
  | .illB => .illB
  | .illC => .illC
  | .illD => .illD
  | .illE => .illE
  | .illF => .illF

/-- The outcome code of an error kind (30_encoding.md R73, 60_exceptions.md R160). -/
def errCode : ErrKind → ErrCode
  | .noResponse => 0b01#2
  | .timeout => 0b10#2
  | .checksumFailed => 0b11#2

/-- The outcome code NONE (30_encoding.md R73). -/
def errNone : ErrCode := 0b00#2

/-- The operation a word names: an ST word its state's operation (30_encoding.md R71); a HOSTIN word
with bit 1 set RESET, else with bit 0 set START (R77), else none. -/
def decode : OpWord → Except DecodeError Instr
  | .st w => .ok (opOf (stOfBits w))
  | .hostin w =>
    if w.getLsbD 1 then .ok .reset
    else if w.getLsbD 0 then .ok .start
    else .error .noHostOperation

/-- The word of an operation (opcode_table.json; RESET's bit 0 is not fixed there, and 0 here). -/
def encode : Instr → OpWord
  | .idle => .st 0x0#4
  | .trig => .st 0x1#4
  | .rel => .st 0x2#4
  | .hsAck => .st 0x3#4
  | .hsRise => .st 0x4#4
  | .hsFall => .st 0x5#4
  | .bitRise => .st 0x6#4
  | .bitDly => .st 0x7#4
  | .bitFall => .st 0x8#4
  | .check => .st 0x9#4
  | .illA => .st 0xA#4
  | .illB => .st 0xB#4
  | .illC => .st 0xC#4
  | .illD => .st 0xD#4
  | .illE => .st 0xE#4
  | .illF => .st 0xF#4
  | .start => .hostin 0b01#2
  | .reset => .hostin 0b10#2

/-- A row of opcode_table.json: its format, and its `match` and `mask`. -/
structure OpRow where
  isHostin : Bool
  pattern : Nat
  mask : Nat
deriving DecidableEq, Repr

/-- The opcode table (opcode_table.json), by operation. -/
def opRow : Instr → OpRow
  | .idle => { isHostin := false, pattern := 0x0, mask := 0xF }
  | .trig => { isHostin := false, pattern := 0x1, mask := 0xF }
  | .rel => { isHostin := false, pattern := 0x2, mask := 0xF }
  | .hsAck => { isHostin := false, pattern := 0x3, mask := 0xF }
  | .hsRise => { isHostin := false, pattern := 0x4, mask := 0xF }
  | .hsFall => { isHostin := false, pattern := 0x5, mask := 0xF }
  | .bitRise => { isHostin := false, pattern := 0x6, mask := 0xF }
  | .bitDly => { isHostin := false, pattern := 0x7, mask := 0xF }
  | .bitFall => { isHostin := false, pattern := 0x8, mask := 0xF }
  | .check => { isHostin := false, pattern := 0x9, mask := 0xF }
  | .illA => { isHostin := false, pattern := 0xA, mask := 0xF }
  | .illB => { isHostin := false, pattern := 0xB, mask := 0xF }
  | .illC => { isHostin := false, pattern := 0xC, mask := 0xF }
  | .illD => { isHostin := false, pattern := 0xD, mask := 0xF }
  | .illE => { isHostin := false, pattern := 0xE, mask := 0xF }
  | .illF => { isHostin := false, pattern := 0xF, mask := 0xF }
  | .start => { isHostin := true, pattern := 0x1, mask := 0x3 }
  | .reset => { isHostin := true, pattern := 0x2, mask := 0x2 }

/-- A word is of a row: it has the row's format, and its bits under the row's mask are the row's. -/
def OpRow.covers (r : OpRow) : OpWord → Bool
  | .st w => !r.isHostin && (w.toNat &&& r.mask) == r.pattern
  | .hostin w => r.isHostin && (w.toNat &&& r.mask) == r.pattern

/-- `{rst, start}` as a HOSTIN word (30_encoding.md R77). -/
def hostinWord (rst start : Bool) : HostinWord := BitVec.ofBool rst ++ BitVec.ofBool start

/-- The operation an enabled edge performs, by the four rows of 30_encoding.md R77: RESET whatever
`st` holds, START in IDLE, and otherwise the state's own operation. -/
def opAt (h : HostinWord) (st : St) : Instr :=
  match decode (.hostin h) with
  | .ok .reset => .reset
  | .ok .start => if st = .idle then .start else opOf st
  | _ => opOf st

/-- The format word that `nbits` bits of the opcode table stand for: two bits are a HOSTIN word; any
other width is read as an ST word in the low four bits, the bits above it 0 (log 7). -/
def tableWord (nbits w : Nat) : Option OpWord :=
  if nbits = 2 then (if w < 4 then some (.hostin (BitVec.ofNat 2 w)) else none)
  else if w < 16 then some (.st (BitVec.ofNat 4 w)) else none

/-- The instruction the decoder reads from an opcode-table word (log 7). -/
def decodeTableWord (nbits w : Nat) : Option Instr :=
  match tableWord nbits w with
  | none => none
  | some o =>
    match decode o with
    | .ok i => some i
    | .error _ => none

end Sys2Proof
end

