-- ==== Sys2Proof/Machine/State.lean ====
section
/-!
DEFINITION. The state. `Block` is the spec's state tuple sigma, whole (10_state.md R21). `State` adds
what the host's step form needs beside it: the parameters the block was built with, and what the host
and the sensor present at the coming clock edges (logs 2, 3 and 4).
-/

namespace Sys2Proof.Machine

/-- The input ports other than `clk`, as sampled at one rising edge of it (10_state.md R20). -/
structure Pins where
  /-- Synchronous reset, active high. -/
  rst : Bool
  /-- Clock enable. -/
  tick : Bool
  /-- Read request. -/
  start : Bool
  /-- `line_i`, the level of the wire. -/
  line : Level
deriving DecidableEq, Repr

/-- The block's state: the eight registers of 10_state.md R21. "Nothing else is state." -/
structure Block where
  /-- The state register (R22). -/
  st : St
  /-- The tick counter (R24). -/
  tcnt : TickCount
  /-- Data bits sampled so far in this read (R25). -/
  bitcnt : BitCount
  /-- The frame shift register (R33). -/
  sr : Frame
  /-- A read has completed (R26). -/
  done : Bool
  /-- The outcome code of the last completed read (R27). -/
  err : ErrCode
  /-- Humidity, unsigned tenths (R28). -/
  hum : Result
  /-- Temperature, two's-complement tenths (R29). -/
  temp : Result
deriving DecidableEq, Repr

/-- The reset values of the registers (10_state.md R38). -/
def Block.reset : Block where
  st := .idle
  tcnt := 0#16
  bitcnt := 0#6
  sr := 0#40
  done := false
  err := 0b00#2
  hum := 0x0000#16
  temp := 0x0000#16

structure State extends Block where
  /-- The build parameters (00_scope.md R9); no step writes them (log 4). -/
  build : Params
  /-- The inputs at the coming `clk` edges, soonest first (log 2). -/
  sched : List Pins
  /-- How many `clk` edges have passed: the argument of the free inputs (log 3). -/
  edge : Nat
deriving DecidableEq, Repr

/-- The machine right after reset: R38, the decided parameters of 00_scope.md R9, no input placed. -/
def State.reset : State where
  toBlock := Block.reset
  build := Params.decided
  sched := []
  edge := 0

/-- A machine stop. The block has none: "the block never stops or locks up" (60_exceptions.md R164),
and its errors are next states (R161). So nothing raises one (log 17). -/
inductive Fault where
deriving DecidableEq, Repr

/-- Why a step has no meaning. -/
inductive Refusal where
  /-- Raised by an arm of exec whose operation has no meaning yet; no arm raises it now. Safe. -/
  | notModelled (mnemonic : String)
  /-- Raised by every step and every operation of a machine whose parameters lie outside the legal
  ranges: "The model refuses to instantiate the block, and it gives no meaning to such a build"
  (00_scope.md R11). Safe: nothing is claimed of such a build. -/
  | illegalBuild
deriving DecidableEq, Repr

end Sys2Proof.Machine
end

