-- ==== Sys2Proof/Machine/Ops.lean ====
section
/-!
DEFINITION. The operations the meanings share: the inputs of the coming edge, the line sample, the
register writes that several rules spell out the same way, the bounded wait (41_handshake.md R110),
error entry (60_exceptions.md R161), and the frame of an operation on a legal build (00_scope.md R11,
R13). There is no return from an error (60_exceptions.md R164).
-/

namespace Sys2Proof.Machine

/-! ## Inputs -/

/-- What the ports show at edge number `n` where nothing is scheduled: free values. -/
def freePins (n : Nat) : Pins where
  rst := Config.freeRst n
  tick := Config.freeTick n
  start := Config.freeStart n
  line := Config.freeLine n

/-- The inputs sampled `j` edges from now: the schedule's, and free values past its end. -/
def State.pinsAt (s : State) (j : Nat) : Pins := s.sched.getD j (freePins (s.edge + j))

/-- The inputs `in_n` sampled at the edge that ends this interval (00_scope.md R13). -/
def State.pins (s : State) : Pins := s.pinsAt 0

/-- The machine with `p` presented at the coming edge. -/
def State.withPins (s : State) (p : Pins) : State := { s with sched := p :: s.sched.tail }

/-- The edge has passed: its inputs are gone, the next ones come up. -/
def State.advance (s : State) : State := { s with sched := s.sched.tail, edge := s.edge + 1 }

/-- `LineSample()`: `line_i` at the current edge, no side effect (20_memory.md R55). -/
def lineSample (i : Pins) : Level := i.line

/-! ## Register writes -/

/-- `st <- next ; tcnt <- 0`: every state transition clears the tick counter (10_state.md R24). -/
def enter (next : St) (b : Block) : Block := { b with st := next, tcnt := 0#16 }

/-- `tcnt <- tcnt + 1`, reduced mod 2^16 (00_scope.md R12, 10_state.md R24). -/
def countTick (b : Block) : Block := { b with tcnt := b.tcnt + 1#16 }

/-- `st <- IDLE ; tcnt <- 0 ; bitcnt <- 0 ; sr <- 0`: how error entry, CHECK and ILL go back to IDLE
(60_exceptions.md R161, 43_validate.md R140, 30_encoding.md R72). -/
def toIdle (b : Block) : Block := { b with st := .idle, tcnt := 0#16, bitcnt := 0#6, sr := 0#40 }

/-- `sr <- sr[38:0] : b` (42_bit_sampler.md R131). -/
def shiftIn (sr : Frame) (b : Level) : Frame := (sr.extractLsb' 0 39).concat b

/-! ## Error entry -/

/-- `raise E` (60_exceptions.md R161): back to IDLE, the frame discarded, the code and `done`
written; `hum` and `temp` are not written. -/
def raiseError (e : ErrKind) (b : Block) : Block :=
  { toIdle b with err := errCode e, done := true }

/-! ## The bounded wait -/

/-- `WAIT(level, limit, next, E)` (41_handshake.md R110): the awaited level beats the timeout, and
the timeout is raised at the sample taken while `tcnt = limit - 1`. -/
def wait (level : Level) (limit : Nat) (next : St) (e : ErrKind) (line : Level) (b : Block) : Block :=
  if line = level then enter next b
  else if b.tcnt.toNat = limit - 1 then raiseError e b
  else countTick b

/-! ## Starting a read -/

/-- The register writes of an accepted START (40_host_interface.md R100). -/
def acceptStart (b : Block) : Block :=
  { b with
    st := .trig, tcnt := 0#16, bitcnt := 0#6, sr := 0#40
    done := false, err := errNone, hum := 0x0000#16, temp := 0x0000#16 }

/-! ## An operation at an edge -/

/-- `sigma_{n+1} = Step(sigma_n, in_n)` on a legal build (00_scope.md R13); a build outside the legal
ranges is refused (R11). All writes of one edge take effect together (R12). -/
def clocked (f : Params → Pins → Block → Block) (s : State) : Host.Outcome State Fault Refusal :=
  if s.build.legal then .next { s with toBlock := f s.build s.pins s.toBlock }
  else .refused .illegalBuild

/-- A rising edge of `clk` with `tick = 0` and `rst = 0`: "no register changes" (00_scope.md R13). -/
def holdEdge (s : State) : Host.Outcome State Fault Refusal := clocked (fun _ _ b => b) s

/-- The operation of the coming edge: none where `tick = 0` and `rst = 0`, else the selection of
30_encoding.md R77 (00_scope.md R13). -/
def State.selected (s : State) : Option Instr :=
  if s.pins.rst || s.pins.tick then some (opAt (hostinWord s.pins.rst s.pins.start) s.st) else none

/-! ## Placing an operation, and power-up -/

/-- The machine whose coming edge performs the operation of word `o`: an ST word is put into `st`
with `rst = start = 0`, a HOSTIN word onto `rst` and `start` (a START with `st` at IDLE, R77). The
level already scheduled for the line is kept, high where none is (log 7). -/
def State.place (s : State) (o : OpWord) : State :=
  let level : Level := (s.sched.head?.map Pins.line).getD true
  match o with
  | .st w =>
    { s.withPins { rst := false, tick := true, start := false, line := level } with
      st := stOfBits w }
  | .hostin h =>
    { s.withPins { rst := h.getLsbD 1, tick := true, start := h.getLsbD 0, line := level } with
      st := if h.getLsbD 1 then s.st else .idle }

/-- The machine at power-up, before its first reset edge: every register any value
(70_reset_and_hazards.md R192). -/
def State.powerUp : State where
  st := stOfBits Config.powerUpSt
  tcnt := Config.powerUpTcnt
  bitcnt := Config.powerUpBitcnt
  sr := Config.powerUpSr
  done := Config.powerUpDone
  err := Config.powerUpErr
  hum := Config.powerUpHum
  temp := Config.powerUpTemp
  build := Params.decided
  sched := []
  edge := 0

end Sys2Proof.Machine
end

