-- ==== Sys2Proof/Machine/Operands.lean ====
section
/-!
DEFINITION. The byte view of the frame (20_memory.md R51) and the operands the validator and the
sign-bit extractor assemble from it (30_encoding.md R79), with the pure functions of 43_validate.md
R141 to R144.
-/

namespace Sys2Proof.Machine

/-- `F[i] = sr[39-8*i : 32-8*i]` (20_memory.md R51). -/
def frameByte (sr : Frame) (i : Fin 5) : FrameByte := sr.extractLsb' (32 - 8 * i.val) 8

/-- `H16 = F[0] : F[1]` (30_encoding.md R79). -/
def h16 (sr : Frame) : BitVec 16 := frameByte sr 0 ++ frameByte sr 1

/-- `T16 = F[2] : F[3]` (30_encoding.md R79). -/
def t16 (sr : Frame) : BitVec 16 := frameByte sr 2 ++ frameByte sr 3

/-- `S = T16[15]`, the sign bit of the unmasked field (30_encoding.md R79, 90_conflicts.md C3). -/
def signBit (t : BitVec 16) : Bool := t.getLsbD 15

/-- `M = zext_16(T16[14:0])` (30_encoding.md R79). -/
def magnitude (t : BitVec 16) : BitVec 16 := (t.extractLsb' 0 15).setWidth 16

/-- `SUM[9:0]`, the sum of the first four bytes (30_encoding.md R79). -/
def frameSum (sr : Frame) : BitVec 10 :=
  (frameByte sr 0).setWidth 10 + (frameByte sr 1).setWidth 10
    + (frameByte sr 2).setWidth 10 + (frameByte sr 3).setWidth 10

/-- `C = SUM[7:0]` (30_encoding.md R79). -/
def frameChecksum (sr : Frame) : FrameByte := (frameSum sr).extractLsb' 0 8

/-- `ChecksumOK(F)` (43_validate.md R141). -/
def checksumOK (sr : Frame) : Bool := frameChecksum sr == frameByte sr 4

/-- `DecodeHumidity(F)` (43_validate.md R142). -/
def decodeHumidity (sr : Frame) : Result := h16 sr

/-- `DecodeTemperature` of a temperature field (43_validate.md R143, R144). -/
def decodeTemperatureField (t : BitVec 16) : Result :=
  if signBit t then BitVec.ofNat 16 (0x10000 - (magnitude t).toNat) else magnitude t

/-- `DecodeTemperature(F)` (43_validate.md R144). -/
def decodeTemperature (sr : Frame) : Result := decodeTemperatureField (t16 sr)

end Sys2Proof.Machine
end

