-- ==== Sys2Proof/Machine/Flags.lean ====
section
/-!
DEFINITION. What the ports show (10_state.md R20, R30 to R32): the flag-like outputs and the line
outputs are functions of the registers, and the host's reading of them (40_host_interface.md R102,
43_validate.md R146). Reading a port has no side effect (20_memory.md R58).
-/

namespace Sys2Proof.Machine

/-- `busy = (st != IDLE)` (10_state.md R30). -/
def busy (b : Block) : Bool := b.st != .idle

/-- `ok = done AND (err == 0b00)` (10_state.md R31). -/
def okFlag (b : Block) : Bool := b.done && b.err == errNone

/-- `line_oe`, the Moore table of 10_state.md R32: 0 while the block listens. -/
def lineOe : St → Bool
  | .idle => true
  | .trig => true
  | .rel => true
  | .hsAck => false
  | .hsRise => false
  | .hsFall => false
  | .bitRise => false
  | .bitDly => false
  | .bitFall => false
  | .check => true
  | .illA => true
  | .illB => true
  | .illC => true
  | .illD => true
  | .illE => true
  | .illF => true

/-- `line_o`, the Moore table of 10_state.md R32: low in TRIG alone. -/
def lineO : St → Level
  | .trig => false
  | .idle => true
  | .rel => true
  | .hsAck => true
  | .hsRise => true
  | .hsFall => true
  | .bitRise => true
  | .bitDly => true
  | .bitFall => true
  | .check => true
  | .illA => true
  | .illB => true
  | .illC => true
  | .illD => true
  | .illE => true
  | .illF => true

/-- The output ports of 10_state.md R20. -/
structure Outputs where
  lineOe : Bool
  lineO : Level
  busy : Bool
  done : Bool
  ok : Bool
  err : ErrCode
  hum : Result
  temp : Result
deriving DecidableEq, Repr

/-- What the ports show throughout an interval (00_scope.md R13). -/
def outputs (b : Block) : Outputs where
  lineOe := lineOe b.st
  lineO := lineO b.st
  busy := busy b
  done := b.done
  ok := okFlag b
  err := b.err
  hum := b.hum
  temp := b.temp

/-- A read's outcome as the source's `Result` names it (40_host_interface.md R102); a reading holds
the integers whose tenths are degrees and percent (43_validate.md R146). -/
inductive ReadOutcome where
  | reading (temperatureTenths : Int) (humidityTenths : Nat)
  | failed (e : ErrKind)
deriving DecidableEq, Repr

/-- The outcome the host reads from the ports (40_host_interface.md R102): none while a read is in
progress, and none where no read has completed since the last reset. -/
def readOutcome (b : Block) : Option ReadOutcome :=
  if busy b || !b.done then none
  else
    match b.err.toNat with
    | 0 => some (.reading b.temp.toInt b.hum.toNat)
    | 1 => some (.failed .noResponse)
    | 2 => some (.failed .timeout)
    | _ => some (.failed .checksumFailed)

end Sys2Proof.Machine
end

