-- ==== Sys2Proof/Machine/Handshake.lean ====
section
/-!
DEFINITION. The handshake family of 41_handshake.md: IDLE, TRIG, REL, HS_ACK, HS_RISE and HS_FALL
(R112 to R117). Each operation is a function of the parameters, the sampled inputs it reads and the
registers; its meaning runs it at an edge.
-/

namespace Sys2Proof.Machine

/-- IDLE (41_handshake.md R112): START where it is requested, else nothing changes. -/
def idleOp (start : Bool) (b : Block) : Block := if start then acceptStart b else b

/-- TRIG (41_handshake.md R113). -/
def trigOp (p : Params) (b : Block) : Block :=
  if b.tcnt.toNat = p.trigTicks - 1 then enter .rel b else countTick b

/-- REL (41_handshake.md R114). -/
def relOp (b : Block) : Block := enter .hsAck b

/-- The state after the acknowledgment, by ACK_HIGH_PHASE (41_handshake.md R115, 90_conflicts.md C1). -/
def afterAck (p : Params) : St := if p.ackHighPhase = 1 then .hsRise else .bitRise

/-- HS_ACK (41_handshake.md R115). -/
def hsAckOp (p : Params) (line : Level) (b : Block) : Block :=
  wait false p.hsTimeoutUs (afterAck p) .noResponse line b

/-- HS_RISE (41_handshake.md R116). -/
def hsRiseOp (p : Params) (line : Level) (b : Block) : Block :=
  wait true p.edgeTimeoutUs .hsFall .timeout line b

/-- HS_FALL (41_handshake.md R117). -/
def hsFallOp (p : Params) (line : Level) (b : Block) : Block :=
  wait false p.edgeTimeoutUs .bitRise .timeout line b

/-- The meaning of IDLE (41_handshake.md R112). -/
def execIdle (s : State) : Host.Outcome State Fault Refusal :=
  clocked (fun _ i b => idleOp i.start b) s

/-- The meaning of TRIG (41_handshake.md R113). -/
def execTrig (s : State) : Host.Outcome State Fault Refusal :=
  clocked (fun p _ b => trigOp p b) s

/-- The meaning of REL (41_handshake.md R114). -/
def execRel (s : State) : Host.Outcome State Fault Refusal :=
  clocked (fun _ _ b => relOp b) s

/-- The meaning of HS_ACK (41_handshake.md R115). -/
def execHsAck (s : State) : Host.Outcome State Fault Refusal :=
  clocked (fun p i b => hsAckOp p (lineSample i) b) s

/-- The meaning of HS_RISE (41_handshake.md R116). -/
def execHsRise (s : State) : Host.Outcome State Fault Refusal :=
  clocked (fun p i b => hsRiseOp p (lineSample i) b) s

/-- The meaning of HS_FALL (41_handshake.md R117). -/
def execHsFall (s : State) : Host.Outcome State Fault Refusal :=
  clocked (fun p i b => hsFallOp p (lineSample i) b) s

end Sys2Proof.Machine
end

