-- ==== Sys2Proof/Machine/Sampler.lean ====
section
/-!
DEFINITION. The pulse-width bit sampler of 42_bit_sampler.md: BIT_RISE, BIT_DLY and BIT_FALL (R130 to
R132). One sample decides each edge and each bit (R136).
-/

namespace Sys2Proof.Machine

/-- BIT_RISE (42_bit_sampler.md R130). -/
def bitRiseOp (p : Params) (line : Level) (b : Block) : Block :=
  wait true p.edgeTimeoutUs .bitDly .timeout line b

/-- The state after the sample of a bit, by the bit and the count held before the edge
(42_bit_sampler.md R131). -/
def afterSample (bit : Level) (bitcnt : BitCount) : St :=
  if bit then .bitFall else if bitcnt.toNat + 1 = Config.frameBits then .check else .bitRise

/-- BIT_DLY (42_bit_sampler.md R131). -/
def bitDlyOp (p : Params) (line : Level) (b : Block) : Block :=
  if b.tcnt.toNat = p.sampleDelayUs - 1 then
    { b with
      sr := shiftIn b.sr line
      bitcnt := b.bitcnt + 1#6
      tcnt := 0#16
      st := afterSample line b.bitcnt }
  else countTick b

/-- The state after the fall of a "1" pulse (42_bit_sampler.md R132). -/
def afterFall (bitcnt : BitCount) : St :=
  if bitcnt.toNat = Config.frameBits then .check else .bitRise

/-- BIT_FALL (42_bit_sampler.md R132). -/
def bitFallOp (p : Params) (line : Level) (b : Block) : Block :=
  wait false p.edgeTimeoutUs (afterFall b.bitcnt) .timeout line b

/-- The meaning of BIT_RISE (42_bit_sampler.md R130). -/
def execBitRise (s : State) : Host.Outcome State Fault Refusal :=
  clocked (fun p i b => bitRiseOp p (lineSample i) b) s

/-- The meaning of BIT_DLY (42_bit_sampler.md R131). -/
def execBitDly (s : State) : Host.Outcome State Fault Refusal :=
  clocked (fun p i b => bitDlyOp p (lineSample i) b) s

/-- The meaning of BIT_FALL (42_bit_sampler.md R132). -/
def execBitFall (s : State) : Host.Outcome State Fault Refusal :=
  clocked (fun p i b => bitFallOp p (lineSample i) b) s

end Sys2Proof.Machine
end

