-- ==== Sys2Proof/Machine/Unused.lean ====
section
/-!
DEFINITION. Operation ILL of 30_encoding.md R72, once for each of the six unused codes: recover to
IDLE, the results unchanged, no flag written and no error raised.
-/

namespace Sys2Proof.Machine

/-- ILL (30_encoding.md R72). -/
def illOp (b : Block) : Block := toIdle b

/-- The meaning of ILL_A (30_encoding.md R72). -/
def execIllA (s : State) : Host.Outcome State Fault Refusal := clocked (fun _ _ b => illOp b) s

/-- The meaning of ILL_B (30_encoding.md R72). -/
def execIllB (s : State) : Host.Outcome State Fault Refusal := clocked (fun _ _ b => illOp b) s

/-- The meaning of ILL_C (30_encoding.md R72). -/
def execIllC (s : State) : Host.Outcome State Fault Refusal := clocked (fun _ _ b => illOp b) s

/-- The meaning of ILL_D (30_encoding.md R72). -/
def execIllD (s : State) : Host.Outcome State Fault Refusal := clocked (fun _ _ b => illOp b) s

/-- The meaning of ILL_E (30_encoding.md R72). -/
def execIllE (s : State) : Host.Outcome State Fault Refusal := clocked (fun _ _ b => illOp b) s

/-- The meaning of ILL_F (30_encoding.md R72). -/
def execIllF (s : State) : Host.Outcome State Fault Refusal := clocked (fun _ _ b => illOp b) s

end Sys2Proof.Machine
end

