-- ==== Sys2Proof/Machine/Validate.lean ====
section
/-!
DEFINITION. CHECK (43_validate.md R140): the checksum validator and the sign-bit extractor at work.
No range or plausibility test is applied (R147).
-/

namespace Sys2Proof.Machine

/-- CHECK (43_validate.md R140). -/
def checkOp (b : Block) : Block :=
  if checksumOK b.sr then
    { toIdle b with
      hum := decodeHumidity b.sr
      temp := decodeTemperature b.sr
      err := errNone
      done := true }
  else raiseError .checksumFailed b

/-- The meaning of CHECK (43_validate.md R140). -/
def execCheck (s : State) : Host.Outcome State Fault Refusal :=
  clocked (fun _ _ b => checkOp b) s

end Sys2Proof.Machine
end

