-- ==== Sys2Proof/Machine/HostOps.lean ====
section
/-!
DEFINITION. The host's two operations: START (40_host_interface.md R100, R101) and RESET
(70_reset_and_hazards.md R190).
-/

namespace Sys2Proof.Machine

/-- The operation of the state the block is in, as if `start = 0` (30_encoding.md R71,
40_host_interface.md R101). -/
def ownOp (p : Params) (line : Level) (b : Block) : Block :=
  match b.st with
  | .idle => idleOp false b
  | .trig => trigOp p b
  | .rel => relOp b
  | .hsAck => hsAckOp p line b
  | .hsRise => hsRiseOp p line b
  | .hsFall => hsFallOp p line b
  | .bitRise => bitRiseOp p line b
  | .bitDly => bitDlyOp p line b
  | .bitFall => bitFallOp p line b
  | .check => checkOp b
  | .illA => illOp b
  | .illB => illOp b
  | .illC => illOp b
  | .illD => illOp b
  | .illE => illOp b
  | .illF => illOp b

/-- START: accepted in IDLE (40_host_interface.md R100); in any other state ignored, and the state's
own operation runs (R101). -/
def startOp (p : Params) (line : Level) (b : Block) : Block :=
  if b.st = .idle then acceptStart b else ownOp p line b

/-- RESET: the reset values of 10_state.md R38, whatever the block held (70_reset_and_hazards.md
R190). -/
def resetOp (_ : Block) : Block := Block.reset

/-- The meaning of START (40_host_interface.md R100, R101). -/
def execStart (s : State) : Host.Outcome State Fault Refusal :=
  clocked (fun p i b => startOp p (lineSample i) b) s

/-- The meaning of RESET (70_reset_and_hazards.md R190). -/
def execReset (s : State) : Host.Outcome State Fault Refusal :=
  clocked (fun _ _ b => resetOp b) s

end Sys2Proof.Machine
end

