-- ==== Sys2Proof/Machine/Dispatch.lean ====
section
/-!
DEFINITION. What each operation does: one arm per constructor of Instr, each one call of its meaning.
-/

namespace Sys2Proof.Machine

def exec (i : Instr) (s : State) : Host.Outcome State Fault Refusal :=
  match i with
  | .idle => Sys2Proof.Machine.execIdle s
  | .trig => Sys2Proof.Machine.execTrig s
  | .rel => Sys2Proof.Machine.execRel s
  | .hsAck => Sys2Proof.Machine.execHsAck s
  | .hsRise => Sys2Proof.Machine.execHsRise s
  | .hsFall => Sys2Proof.Machine.execHsFall s
  | .bitRise => Sys2Proof.Machine.execBitRise s
  | .bitDly => Sys2Proof.Machine.execBitDly s
  | .bitFall => Sys2Proof.Machine.execBitFall s
  | .check => Sys2Proof.Machine.execCheck s
  | .illA => Sys2Proof.Machine.execIllA s
  | .illB => Sys2Proof.Machine.execIllB s
  | .illC => Sys2Proof.Machine.execIllC s
  | .illD => Sys2Proof.Machine.execIllD s
  | .illE => Sys2Proof.Machine.execIllE s
  | .illF => Sys2Proof.Machine.execIllF s
  | .start => Sys2Proof.Machine.execStart s
  | .reset => Sys2Proof.Machine.execReset s

end Sys2Proof.Machine
end

