-- ==== Sys2Proof/Machine/Step.lean ====
section
/-!
DEFINITION. One step of the model is one rising edge of `clk` (00_scope.md R13, 10_state.md R20): the
inputs are sampled, the operation they and `st` select is performed, and the edge passes. An enabled
edge (tick = 1 or rst = 1) is the spec's own step; an edge that is not enabled changes no register.
-/

namespace Sys2Proof.Machine

/-- One rising edge of `clk`: the selected operation, or none, and then the inputs move on. -/
def step (s : State) : Host.Outcome State Fault Refusal :=
  let edgeResult :=
    match s.selected with
    | some i => exec i s
    | none => holdEdge s
  match edgeResult with
  | .next t => .next t.advance
  | .fault r => .fault r
  | .refused r => .refused r

/-- `s` with the opcode-table word `w` where the next step selects its operation (log 7, log 8); a
word that names no operation places nothing. -/
def State.withFetchWord (s : State) (nbits w : Nat) : State :=
  match tableWord nbits w with
  | some o => if (decodeTableWord nbits w).isSome then s.place o else s
  | none => s

end Sys2Proof.Machine
end

