-- ==== Sys2Proof/Safety.lean ====
section
/-!
DEFINITION. The terms claims use: runs of several edges, the invariant of the block, the order its
states follow, what a sensor's pulses look like on the line, and the duties of the host
(70_reset_and_hazards.md R193 to R199), which the block neither enforces nor detects.
-/

namespace Sys2Proof.Machine

/-! ## Runs -/

/-- The outcome of `n` `clk` edges. -/
def edges : Nat → State → Host.Outcome State Fault Refusal
  | 0, s => .next s
  | n + 1, s =>
    match step s with
    | .next t => edges n t
    | .fault r => .fault r
    | .refused r => .refused r

/-- The coming `n` edges are enabled ones without reset. -/
def Undisturbed (s : State) (n : Nat) : Prop :=
  ∀ j < n, (s.pinsAt j).rst = false ∧ (s.pinsAt j).tick = true

/-- No reset at the coming `n` edges, and no START presented at an enabled one. -/
def Quiet (s : State) (n : Nat) : Prop :=
  ∀ j < n, (s.pinsAt j).rst = false ∧ ((s.pinsAt j).tick = false ∨ (s.pinsAt j).start = false)

/-- The coming edge accepts a START (40_host_interface.md R100). -/
def Accepts (s : State) : Prop :=
  s.st = .idle ∧ s.pins.rst = false ∧ s.pins.tick = true ∧ s.pins.start = true

/-! ## The invariant -/

/-- The number of edges a state may hold `tcnt` below: its `limit`, and 1 where the state never
counts (10_state.md R24, R36). -/
def tickLimit (p : Params) : St → Nat
  | .idle => 1
  | .trig => p.trigTicks
  | .rel => 1
  | .hsAck => p.hsTimeoutUs
  | .hsRise => p.edgeTimeoutUs
  | .hsFall => p.edgeTimeoutUs
  | .bitRise => p.edgeTimeoutUs
  | .bitDly => p.sampleDelayUs
  | .bitFall => p.edgeTimeoutUs
  | .check => 1
  | .illA => 1
  | .illB => 1
  | .illC => 1
  | .illD => 1
  | .illE => 1
  | .illF => 1

/-- The state is one of the ten codes 0x0 to 0x9 (10_state.md R23). -/
def usedCode (st : St) : Bool := decide ((stBits st).toNat ≤ 9)

/-- The least and the greatest `bitcnt` a state can hold (10_state.md R25, R36;
42_bit_sampler.md R134). -/
def bitRange : St → Nat × Nat
  | .bitRise => (0, 39)
  | .bitDly => (0, 39)
  | .bitFall => (1, 40)
  | .check => (40, 40)
  | .idle => (0, 0)
  | .trig => (0, 0)
  | .rel => (0, 0)
  | .hsAck => (0, 0)
  | .hsRise => (0, 0)
  | .hsFall => (0, 0)
  | .illA => (0, 0)
  | .illB => (0, 0)
  | .illC => (0, 0)
  | .illD => (0, 0)
  | .illE => (0, 0)
  | .illF => (0, 0)

/-- What holds in every state from the first reset on. -/
structure Inv (s : State) : Prop where
  /-- The build is legal (00_scope.md R11). -/
  built : s.build.legal = true
  /-- No unused code is held (10_state.md R23). -/
  used : usedCode s.st = true
  /-- Without a high phase, HS_RISE and HS_FALL are never entered (41_handshake.md R116). -/
  phase : s.build.ackHighPhase = 0 → s.st ≠ .hsRise ∧ s.st ≠ .hsFall
  /-- `tcnt` stays below its state's limit (10_state.md R24). -/
  ticks : s.tcnt.toNat < tickLimit s.build s.st
  /-- `bitcnt` stays in its state's range (10_state.md R25, R36; 42_bit_sampler.md R134). -/
  bits : (bitRange s.st).1 ≤ s.bitcnt.toNat ∧ s.bitcnt.toNat ≤ (bitRange s.st).2
  /-- `sr` holds its partial frame right-aligned in `bitcnt` bits (20_memory.md R51). -/
  frame : s.sr.toNat < 2 ^ s.bitcnt.toNat
  /-- BIT_FALL is entered only after a sample of 1 (42_bit_sampler.md R132). -/
  fall : s.st = .bitFall → s.sr.getLsbD 0 = true
  /-- A busy block has no result (20_memory.md R62). -/
  pending : busy s.toBlock = true → s.done = false
  /-- Without a completed read, the result registers are clear (10_state.md R26 to R29). -/
  clear : s.done = false → s.err = 0b00#2 ∧ s.hum = 0#16 ∧ s.temp = 0#16
  /-- A failed read leaves no reading (10_state.md R31). -/
  failed : s.err ≠ 0b00#2 → s.hum = 0#16 ∧ s.temp = 0#16
  /-- -32768 is never produced (30_encoding.md R76). -/
  range : s.temp ≠ 0x8000#16

/-! ## The order of states -/

/-- The successors the rules name for a state, itself apart (20_memory.md R60 and the state rules):
every state of a read may also end in IDLE, by an error, a completion or a reset. -/
def successors (p : Params) : St → List St
  | .idle => [.trig]
  | .trig => [.rel, .idle]
  | .rel => [.hsAck, .idle]
  | .hsAck => [afterAck p, .idle]
  | .hsRise => [.hsFall, .idle]
  | .hsFall => [.bitRise, .idle]
  | .bitRise => [.bitDly, .idle]
  | .bitDly => [.bitFall, .bitRise, .check, .idle]
  | .bitFall => [.bitRise, .check, .idle]
  | .check => [.idle]
  | .illA => [.idle]
  | .illB => [.idle]
  | .illC => [.idle]
  | .illD => [.idle]
  | .illE => [.idle]
  | .illF => [.idle]

/-! ## Waiting states -/

/-- The operands of a `WAIT` (41_handshake.md R110). -/
structure WaitFor where
  level : Level
  limit : Nat
  next : St
  err : ErrKind
deriving DecidableEq, Repr

/-- The `WAIT` each waiting state makes (41_handshake.md R115 to R117; 42_bit_sampler.md R130,
R132). -/
def waitOf (p : Params) (bitcnt : BitCount) : St → Option WaitFor
  | .hsAck =>
    some { level := false, limit := p.hsTimeoutUs, err := .noResponse
           next := if p.ackHighPhase = 1 then .hsRise else .bitRise }
  | .hsRise => some { level := true, limit := p.edgeTimeoutUs, next := .hsFall, err := .timeout }
  | .hsFall => some { level := false, limit := p.edgeTimeoutUs, next := .bitRise, err := .timeout }
  | .bitRise => some { level := true, limit := p.edgeTimeoutUs, next := .bitDly, err := .timeout }
  | .bitFall =>
    some { level := false, limit := p.edgeTimeoutUs, err := .timeout
           next := if bitcnt.toNat = 40 then .check else .bitRise }
  | .idle => none
  | .trig => none
  | .rel => none
  | .bitDly => none
  | .check => none
  | .illA => none
  | .illB => none
  | .illC => none
  | .illD => none
  | .illE => none
  | .illF => none

/-! ## A sensor's data pulses -/

/-- One data bit on the line: `low` intervals low, then `high` intervals high (30_encoding.md R82). -/
structure Pulse where
  low : Nat
  high : Nat
deriving DecidableEq, Repr

/-- The bit a pulse reads as: 1 if it is high for more than SAMPLE_DELAY_US intervals
(42_bit_sampler.md R133). -/
def Pulse.bit (p : Params) (q : Pulse) : Bool := decide (p.sampleDelayUs < q.high)

/-- The levels of a list of pulses, interval by interval. -/
def pulseLevels : List Pulse → List Level
  | [] => []
  | q :: more => List.replicate q.low false ++ List.replicate q.high true ++ pulseLevels more

/-- How many intervals of the low that follows a pulse are sampled before the next wait for a rise:
the one that shows the fall after a 1, and after a 0 those up to the sample (42_bit_sampler.md R131,
R132). -/
def lowUsed (p : Params) (q : Pulse) : Nat :=
  if q.bit p then 1 else p.sampleDelayUs + 1 - q.high

/-- Pulses, and the low that ends them, that keep every wait within its limit: `used` intervals of the
first low are gone already when the wait for its rise begins, each later low outlasts what the bit
before it uses, and no high outlasts the wait for its fall. -/
def PulsesFit (p : Params) : Nat → List Pulse → Nat → Prop
  | used, [], tail => used ≤ tail
  | used, q :: more, tail =>
    used ≤ q.low ∧ q.low - used < p.edgeTimeoutUs ∧ 1 ≤ q.high
      ∧ q.high ≤ p.sampleDelayUs + p.edgeTimeoutUs ∧ PulsesFit p (lowUsed p q) more tail

/-- A sensor's answer to one trigger: `response` intervals high, the acknowledgment low and high, the
data pulses, and the low that ends the last of them (20_memory.md R60). -/
structure Answer where
  response : Nat
  ackLow : Nat
  ackHigh : Nat
  pulses : List Pulse
  tail : Nat
deriving DecidableEq, Repr

/-- The levels of an answer from the first interval of HS_ACK on. A build without a high phase takes
the first pulse's low for the acknowledgment (41_handshake.md R115). -/
def Answer.levels (p : Params) (a : Answer) : List Level :=
  List.replicate a.response true
    ++ (if p.ackHighPhase = 1 then List.replicate a.ackLow false ++ List.replicate a.ackHigh true
      else [])
    ++ (pulseLevels a.pulses ++ List.replicate a.tail false)

/-- An answer of forty pulses that keeps every wait of a read within its limit; the first interval of
the first pulse's low ends the handshake. -/
def Answer.Fits (p : Params) (a : Answer) : Prop :=
  a.pulses.length = 40 ∧ a.response < p.hsTimeoutUs
    ∧ (p.ackHighPhase = 1 → 1 ≤ a.ackLow ∧ a.ackLow ≤ p.edgeTimeoutUs
      ∧ 1 ≤ a.ackHigh ∧ a.ackHigh ≤ p.edgeTimeoutUs)
    ∧ PulsesFit p 1 a.pulses a.tail

/-! ## Duties of the host

Edges of the run from `s` are numbered from 0: edge `j` samples `s.pinsAt j`, and the block is before it
in the state that `edges j s` gives. -/

/-- A START is accepted at edge `n`, and the read it began is in progress up to edge `j`. -/
def ReadInProgress (s : State) (n j : Nat) : Prop :=
  (∃ t, edges n s = .next t ∧ Accepts t) ∧ n < j
    ∧ ∀ i, n < i → i ≤ j → ∃ u, edges i s = .next u ∧ busy u.toBlock = true

/-- The read begun at edge `n` ends at edge `j`: it completes, or a reset abandons it
(70_reset_and_hazards.md R191). -/
def ReadEnds (s : State) (n j : Nat) : Prop :=
  ReadInProgress s n j ∧ ∃ u, edges (j + 1) s = .next u ∧ busy u.toBlock = false

/-- What the host owes the block and its sensor on the run from `s`. A breach is neither detected nor
prevented by the block. `k` is the number of `clk` cycles in a microsecond: between edges `n` and `m`
pass `m - n` of them, enabled or not. `powered` is the edge from which the sensor has its power, any
edge, since the spec gives no instant (DESIGN CHOICE, log 20: a sensor powered before the run counts
from its first edge). `sensorLow j` says that the sensor drives the line low before edge `j`. -/
structure HostDuties (k powered : Nat) (sensorLow : Nat → Bool) (s : State) : Prop where
  /-- The period of `clk` divides a microsecond (70_reset_and_hazards.md R199). -/
  clock : 0 < k
  /-- Boot, in this order (70_reset_and_hazards.md R193): `rst` is held for at least one edge and
  released before edge `r`; then SENSOR_POWERUP_US passes, with the sensor powered; then comes a
  START. -/
  boot : ∀ m t, edges m s = .next t → Accepts t →
    ∃ r, 0 < r ∧ (s.pinsAt (r - 1)).rst = true ∧ (s.pinsAt r).rst = false
      ∧ max r powered + Config.sensorPowerupUs * k ≤ m
  /-- The line reads high whenever neither the block nor the sensor drives it low: the pull-up
  (70_reset_and_hazards.md R193). -/
  pullUp : ∀ j t, edges j s = .next t → ¬ (lineOe t.st = true ∧ lineO t.st = false) →
    sensorLow j = false → (s.pinsAt j).line = true
  /-- MIN_READ_INTERVAL_US passes between the end of a read, a reset's abandoning it included, and a
  later START (70_reset_and_hazards.md R191, R194). -/
  interval : ∀ n j m t, ReadEnds s n j → j < m → edges m s = .next t → Accepts t →
    j + Config.minReadIntervalUs * k ≤ m
  /-- `start` is dropped before the read completes (70_reset_and_hazards.md R195). -/
  dropStart : ∀ n j, ReadEnds s n j → (s.pinsAt j).rst = false → (s.pinsAt j).start = false
  /-- During a read `tick` is high for exactly one `clk` cycle in every microsecond, counted from the
  START edge; in IDLE it may stop (70_reset_and_hazards.md R199, R202). -/
  tickRegular : ∀ n j, ReadInProgress s n j → ((s.pinsAt j).tick = true ↔ (j - n) % k = 0)

/-- The duty of whoever puts several blocks on a board, each given with the number of its line: "Two
blocks must not share one line" (60_exceptions.md R171). A block itself is one `Block` with one line
and one host's inputs, and shares no state with another. -/
def LinesExclusive (blocks : List (Nat × State)) : Prop := (blocks.map Prod.fst).Nodup

/-- `hum` and `temp` are a reading (70_reset_and_hazards.md R196). -/
def resultValid (b : Block) : Bool := !busy b && okFlag b

end Sys2Proof.Machine
end

