-- ==== Sys2Proof/Certificates/Slice0/Obligations.lean ====
section
/-!
DEFINITION. The statements for the provers. Each says in its docstring which rule of spec/ it
formalises; the next state of an operation is written out register by register, so that what is not
written there is unchanged.
-/

open Sys2Proof Sys2Proof.Machine

/-! ## Encoding and selection -/

/-- The decoder reads an operation from exactly the words of the operation's opcode-table row
(opcode_table.json; 30_encoding.md R71): no row is lost, none overlaps another of its format. -/
def Obligations.DecodingFollowsTheOpcodeTable : Prop :=
  ∀ (o : OpWord) (i : Instr), decode o = .ok i ↔ (opRow i).covers o = true

/-- Decoding the encoder's word gives the operation back, for every operation, and the encoder's word
fixes no bit against the operation's row (30_encoding.md R70, R77). -/
def Obligations.DecodeOfEncodeIsTheOperation : Prop :=
  ∀ i : Instr, decode (encode i) = .ok i ∧ (opRow i).covers (encode i) = true

/-- Words written out from 30_encoding.md R70 and R77 decode to what they stand for: one of the
handshake, the sampler, CHECK, the unused codes, and the three HOSTIN words that name an operation. -/
def Obligations.WrittenOutWordsDecode : Prop :=
  decode (.st 0b0011#4) = .ok .hsAck ∧ decode (.st 0b0111#4) = .ok .bitDly
    ∧ decode (.st 0b1001#4) = .ok .check ∧ decode (.st 0b1100#4) = .ok .illC
    ∧ decode (.hostin 0b01#2) = .ok .start ∧ decode (.hostin 0b10#2) = .ok .reset
    ∧ decode (.hostin 0b11#2) = .ok .reset ∧ decode (.hostin 0b00#2) = .error .noHostOperation

/-- The four rows of 30_encoding.md R77: RESET with any `st`, START in IDLE, else the state's own
operation. -/
def Obligations.HostInputWordSelectsTheOperation : Prop :=
  ∀ (start : Bool) (st : St),
    opAt (hostinWord true start) st = .reset
      ∧ opAt (hostinWord false true) .idle = .start
      ∧ (st ≠ .idle → opAt (hostinWord false true) st = opOf st)
      ∧ opAt (hostinWord false false) st = opOf st

/-- A step performs the operation the inputs and `st` select, and the inputs move on by one edge (the
model's own `sched` and `edge`); at an edge that is not enabled no register changes (00_scope.md
R13). -/
def Obligations.StepRunsTheSelectedOperation : Prop :=
  ∀ s : State,
    (∀ t : State, s.pins.rst = true ∨ s.pins.tick = true →
      exec (opAt (hostinWord s.pins.rst s.pins.start) s.st) s = .next t →
      step s = .next { t with sched := t.sched.tail, edge := t.edge + 1 })
    ∧ (s.build.legal = true → s.pins.rst = false → s.pins.tick = false →
      step s = .next { s with sched := s.sched.tail, edge := s.edge + 1 })

/-- A parameter set outside the legal ranges (00_scope.md section 4, the table of R9) is refused,
whatever the operation: no such build has a meaning. That the refusal stands in each operation and each
step is the model's reading of R11 (DEDUCED, log 5). -/
def Obligations.IllegalBuildIsRefused : Prop :=
  ∀ s : State,
    (s.build.legal = true ↔
      (18 ≤ s.build.triggerLowMs ∧ s.build.triggerLowMs ≤ 65)
        ∧ (1 ≤ s.build.hsTimeoutUs ∧ s.build.hsTimeoutUs ≤ 65535)
        ∧ (1 ≤ s.build.edgeTimeoutUs ∧ s.build.edgeTimeoutUs ≤ 65535)
        ∧ (1 ≤ s.build.sampleDelayUs ∧ s.build.sampleDelayUs ≤ 65535)
        ∧ (s.build.ackHighPhase = 0 ∨ s.build.ackHighPhase = 1))
    ∧ (s.build.legal = false →
      (∀ i : Instr, exec i s = .refused .illegalBuild) ∧ step s = .refused .illegalBuild)

/-- Every operation of a legal build completes, and so does every edge: the block never stops or locks
up (60_exceptions.md section 3). No operation touches the build or the inputs, which are the model's
own fields. -/
def Obligations.EveryOperationCompletes : Prop :=
  ∀ s : State, s.build.legal = true →
    (∀ i : Instr, ∃ t, exec i s = .next t
      ∧ t.build = s.build ∧ t.sched = s.sched ∧ t.edge = s.edge)
    ∧ ∃ t, step s = .next t
      ∧ t.build = s.build ∧ t.sched = s.sched.tail ∧ t.edge = s.edge + 1

/-! ## Reset and power-up -/

/-- RESET (70_reset_and_hazards.md R190): every register takes its reset value whatever the block
held, whatever `tick`, `start` and the line show, and the line is driven high. -/
def Obligations.ResetReturnsEveryRegister : Prop :=
  ∀ s : State, s.build.legal = true →
    (∀ w : HostinWord, decode (.hostin w) = .ok .reset ↔ w = 0b10#2 ∨ w = 0b11#2)
    ∧ exec .reset s = .next { s with
        st := .idle, tcnt := 0#16, bitcnt := 0#6, sr := 0#40
        done := false, err := 0b00#2, hum := 0x0000#16, temp := 0x0000#16 }
    ∧ (s.pins.rst = true → ∃ t, step s = .next t
        ∧ t.toBlock = { st := .idle, tcnt := 0#16, bitcnt := 0#6, sr := 0#40
                        done := false, err := 0b00#2, hum := 0x0000#16, temp := 0x0000#16 }
        ∧ outputs t.toBlock = { lineOe := true, lineO := true, busy := false, done := false
                                ok := false, err := 0b00#2, hum := 0#16, temp := 0#16 })

/-- The registers and outputs of the reset state (10_state.md section 9). -/
def Obligations.ResetStateHoldsTheListedValues : Prop :=
  State.reset.toBlock = { st := .idle, tcnt := 0#16, bitcnt := 0#6, sr := 0#40
                          done := false, err := 0b00#2, hum := 0x0000#16, temp := 0x0000#16 }
    ∧ outputs State.reset.toBlock = { lineOe := true, lineO := true, busy := false, done := false
                                      ok := false, err := 0b00#2, hum := 0#16, temp := 0#16 }

/-- Whatever the registers hold (10_state.md section 9: before the first reset they are unspecified),
one edge with `rst = 1` establishes the invariant. -/
def Obligations.OneResetEdgeEstablishesTheInvariant : Prop :=
  ∀ s : State, s.build.legal = true → s.pins.rst = true → ∃ t, step s = .next t ∧ Inv t

/-- The reset state meets the invariant. -/
def Obligations.ResetStateMeetsTheInvariant : Prop := Inv State.reset

/-- Every step keeps the invariant: the used codes, the tick and bit ranges, the right-aligned partial
frame, no result while busy, no reading after a failure, and never -32768. -/
def Obligations.EveryStepKeepsTheInvariant : Prop :=
  ∀ s t : State, Inv s → step s = .next t → Inv t

/-! ## The host's operations -/

/-- START in IDLE (40_host_interface.md R100): all eight registers are written, the line goes low, and
the block is busy from the next interval. -/
def Obligations.StartBeginsARead : Prop :=
  decode (.hostin 0b01#2) = .ok .start ∧
  ∀ s : State, s.build.legal = true → s.st = .idle →
    exec .start s = .next { s with
        st := .trig, tcnt := 0#16, bitcnt := 0#6, sr := 0#40
        done := false, err := 0b00#2, hum := 0x0000#16, temp := 0x0000#16 }
    ∧ (s.pins.rst = false → s.pins.tick = true → s.pins.start = true → ∃ t, step s = .next t
        ∧ t.toBlock = { st := .trig, tcnt := 0#16, bitcnt := 0#6, sr := 0#40
                        done := false, err := 0b00#2, hum := 0x0000#16, temp := 0x0000#16 }
        ∧ outputs t.toBlock = { lineOe := true, lineO := false, busy := true, done := false
                                ok := false, err := 0b00#2, hum := 0#16, temp := 0#16 })

/-- START while busy is ignored (40_host_interface.md): the step is the same with `start` at 1 and at 0.
That exec of START is then the state's own operation is the model's reading, since the spec never
selects START there (DEDUCED, log 6). -/
def Obligations.StartWhileBusyIsIgnored : Prop :=
  ∀ s : State, s.build.legal = true → s.st ≠ .idle →
    exec .start s = exec (opOf s.st) s
    ∧ (s.pins.rst = false → s.pins.tick = true → ∃ t,
        step (s.withPins { s.pins with start := true }) = .next t
        ∧ step (s.withPins { s.pins with start := false }) = .next t)

/-- START while busy (40_host_interface.md R101): an enabled edge outside IDLE with `rst = 0` performs
the state's own operation, and leaves every register the same, with `start` at 1 as with `start` at 0;
no error is raised that was not raised without it, and no request is kept. -/
def Obligations.StartWhileBusyChangesNoRegister : Prop :=
  ∀ s : State, s.build.legal = true → s.st ≠ .idle → s.pins.rst = false → s.pins.tick = true →
    ∃ t u v,
      step (s.withPins { s.pins with start := true }) = .next t
        ∧ step (s.withPins { s.pins with start := false }) = .next u
        ∧ exec (opOf s.st) (s.withPins { s.pins with start := false }) = .next v
        ∧ t.toBlock = u.toBlock ∧ u.toBlock = v.toBlock

/-- A read does not depend on an earlier read's result: from IDLE with a START, blocks that differ
only in what IDLE holds step to the same state (10_state.md section 2, "stateless between
invocations"). -/
def Obligations.ReadDoesNotDependOnEarlierResults : Prop :=
  ∀ (s : State) (b : Block), s.build.legal = true → Accepts s → b.st = .idle →
    ∃ t, step s = .next t ∧ step { s with toBlock := b } = .next t

/-! ## The handshake -/

/-- IDLE (41_handshake.md R112): START where it is requested, and otherwise nothing changes; the line
is driven high, the block is not busy, and in a state of the invariant the datapath is clear. -/
def Obligations.IdleWaitsForStart : Prop :=
  decode (.st 0x0#4) = .ok .idle ∧
  ∀ s : State, s.build.legal = true →
    (s.pins.start = true → exec .idle s = .next { s with
        st := .trig, tcnt := 0#16, bitcnt := 0#6, sr := 0#40
        done := false, err := 0b00#2, hum := 0x0000#16, temp := 0x0000#16 })
    ∧ (s.pins.start = false → exec .idle s = .next s)
    ∧ (s.st = .idle → lineOe s.st = true ∧ lineO s.st = true ∧ busy s.toBlock = false)
    ∧ (Inv s → s.st = .idle → s.tcnt = 0#16 ∧ s.bitcnt = 0#6 ∧ s.sr = 0#40)

/-- TRIG (41_handshake.md R113): it counts TRIG_TICKS edges with the line driven low and then enters
REL, without reading the line. -/
def Obligations.TrigHoldsTheLineLow : Prop :=
  decode (.st 0x1#4) = .ok .trig ∧
  ∀ s : State, s.build.legal = true →
    exec .trig s = .next (if s.tcnt.toNat + 1 = s.build.triggerLowMs * 1000
      then { s with st := .rel, tcnt := 0#16 } else { s with tcnt := s.tcnt + 1#16 })
    ∧ (s.st = .trig → lineOe s.st = true ∧ lineO s.st = false ∧ busy s.toBlock = true)
    ∧ (s.st = .trig → s.tcnt = 0#16 → Undisturbed s (s.build.triggerLowMs * 1000) →
        (∀ j < s.build.triggerLowMs * 1000, ∃ t, edges j s = .next t ∧ t.st = .trig)
        ∧ ∃ t, edges (s.build.triggerLowMs * 1000) s = .next t
            ∧ t.toBlock = { s.toBlock with st := .rel, tcnt := 0#16 })

/-- REL (41_handshake.md R114): one edge driven high, then the line is released in HS_ACK. -/
def Obligations.RelReleasesTheLine : Prop :=
  decode (.st 0x2#4) = .ok .rel ∧ lineOe .hsAck = false ∧
  ∀ s : State, s.build.legal = true →
    exec .rel s = .next { s with st := .hsAck, tcnt := 0#16 }
    ∧ (s.st = .rel → lineOe s.st = true ∧ lineO s.st = true ∧ busy s.toBlock = true)

/-- HS_ACK (41_handshake.md R115): a low sample is the acknowledgment; after HS_TIMEOUT_US samples
without one NoResponse is raised. -/
def Obligations.HsAckWaitsForTheAcknowledgment : Prop :=
  decode (.st 0x3#4) = .ok .hsAck ∧
  ∀ s : State, s.build.legal = true →
    exec .hsAck s = .next (
      if s.pins.line = false then
        { s with st := if s.build.ackHighPhase = 1 then .hsRise else .bitRise, tcnt := 0#16 }
      else if s.tcnt.toNat + 1 = s.build.hsTimeoutUs then
        { s with st := .idle, tcnt := 0#16, bitcnt := 0#6, sr := 0#40, done := true, err := 0b01#2 }
      else { s with tcnt := s.tcnt + 1#16 })
    ∧ (s.st = .hsAck → lineOe s.st = false ∧ busy s.toBlock = true)

/-- HS_RISE (41_handshake.md R116): a high sample ends the acknowledgment's low; after EDGE_TIMEOUT_US
samples without one Timeout is raised; with ACK_HIGH_PHASE = 0 no edge enters the state. -/
def Obligations.HsRiseWaitsForTheHighPhase : Prop :=
  decode (.st 0x4#4) = .ok .hsRise ∧
  ∀ s : State, s.build.legal = true →
    exec .hsRise s = .next (
      if s.pins.line = true then { s with st := .hsFall, tcnt := 0#16 }
      else if s.tcnt.toNat + 1 = s.build.edgeTimeoutUs then
        { s with st := .idle, tcnt := 0#16, bitcnt := 0#6, sr := 0#40, done := true, err := 0b10#2 }
      else { s with tcnt := s.tcnt + 1#16 })
    ∧ (s.st = .hsRise → lineOe s.st = false ∧ busy s.toBlock = true)
    ∧ (∀ t, s.build.ackHighPhase = 0 → s.st ≠ .hsRise → step s = .next t → t.st ≠ .hsRise)

/-- HS_FALL (41_handshake.md R117): a low sample begins the first data bit; after EDGE_TIMEOUT_US
samples without one Timeout is raised; no data bit is counted yet; with ACK_HIGH_PHASE = 0 no edge
enters the state from the states such a build uses. -/
def Obligations.HsFallWaitsForTheFirstDataBit : Prop :=
  decode (.st 0x5#4) = .ok .hsFall ∧
  ∀ s : State, s.build.legal = true →
    exec .hsFall s = .next (
      if s.pins.line = false then { s with st := .bitRise, tcnt := 0#16 }
      else if s.tcnt.toNat + 1 = s.build.edgeTimeoutUs then
        { s with st := .idle, tcnt := 0#16, bitcnt := 0#6, sr := 0#40, done := true, err := 0b10#2 }
      else { s with tcnt := s.tcnt + 1#16 })
    ∧ (s.st = .hsFall → lineOe s.st = false ∧ busy s.toBlock = true)
    ∧ (Inv s → s.st = .hsFall → s.bitcnt = 0#6)
    ∧ (∀ t, s.build.ackHighPhase = 0 → s.st ≠ .hsRise → s.st ≠ .hsFall → step s = .next t →
        t.st ≠ .hsFall)

/-- The timing of every bounded wait (41_handshake.md section 1): entered with `tcnt = 0`, a wait takes
the first awaited level among its `limit` samples at that sample's edge, the `limit`-th included, and
raises its error at the `limit`-th sample where none shows the level. -/
def Obligations.WaitMakesAtMostLimitSamples : Prop :=
  ∀ (s : State) (w : WaitFor), s.build.legal = true → waitOf s.build s.bitcnt s.st = some w →
    s.tcnt = 0#16 → Undisturbed s w.limit →
    (∀ j < w.limit, (∀ i < j, (s.pinsAt i).line ≠ w.level) → (s.pinsAt j).line = w.level →
      ∃ t, edges (j + 1) s = .next t ∧ t.toBlock = { s.toBlock with st := w.next, tcnt := 0#16 })
    ∧ ((∀ i < w.limit, (s.pinsAt i).line ≠ w.level) →
      ∃ t, edges w.limit s = .next t
        ∧ t.toBlock = { s.toBlock with
            st := .idle, tcnt := 0#16, bitcnt := 0#6, sr := 0#40, done := true
            err := match w.err with
              | .noResponse => 0b01#2
              | .timeout => 0b10#2
              | .checksumFailed => 0b11#2 })

/-! ## The bit sampler -/

/-- BIT_RISE (42_bit_sampler.md R130): a high sample starts the bit; after EDGE_TIMEOUT_US samples
without one Timeout is raised; the state is entered only at an edge whose sample showed low. -/
def Obligations.BitRiseWaitsForTheStartOfABit : Prop :=
  decode (.st 0x6#4) = .ok .bitRise ∧
  ∀ s : State, s.build.legal = true →
    exec .bitRise s = .next (
      if s.pins.line = true then { s with st := .bitDly, tcnt := 0#16 }
      else if s.tcnt.toNat + 1 = s.build.edgeTimeoutUs then
        { s with st := .idle, tcnt := 0#16, bitcnt := 0#6, sr := 0#40, done := true, err := 0b10#2 }
      else { s with tcnt := s.tcnt + 1#16 })
    ∧ (s.st = .bitRise → lineOe s.st = false ∧ busy s.toBlock = true)
    ∧ (∀ t, step s = .next t → s.st ≠ .bitRise → t.st = .bitRise → s.pins.line = false)

/-- BIT_DLY (42_bit_sampler.md R131): SAMPLE_DELAY_US edges, and at the last one the sample is shifted
into the frame's low end and counted; a 1 goes to BIT_FALL, the 40th bit's 0 to CHECK, another 0 to
BIT_RISE. No error is raised. -/
def Obligations.BitDlySamplesAndShifts : Prop :=
  decode (.st 0x7#4) = .ok .bitDly ∧
  ∀ s : State, s.build.legal = true →
    exec .bitDly s = .next (
      if s.tcnt.toNat + 1 = s.build.sampleDelayUs then
        { s with
          sr := s.sr.extractLsb' 0 39 ++ BitVec.ofBool s.pins.line
          bitcnt := s.bitcnt + 1#6
          tcnt := 0#16
          st := if s.pins.line = true then .bitFall
            else if s.bitcnt.toNat + 1 = 40 then .check else .bitRise }
      else { s with tcnt := s.tcnt + 1#16 })
    ∧ (s.st = .bitDly → lineOe s.st = false ∧ busy s.toBlock = true)
    ∧ (s.st = .bitDly → s.tcnt = 0#16 → Undisturbed s s.build.sampleDelayUs →
        (∀ j < s.build.sampleDelayUs, ∃ t, edges j s = .next t ∧ t.st = .bitDly)
        ∧ ∃ t, edges s.build.sampleDelayUs s = .next t ∧ t.st ≠ .bitDly ∧ t.tcnt = 0#16)

/-- BIT_FALL (42_bit_sampler.md R132): a low sample ends a "1" pulse, and leads to CHECK after the
40th bit and to BIT_RISE before; after EDGE_TIMEOUT_US samples without one Timeout is raised; the state
is entered only after a sample of 1. -/
def Obligations.BitFallWaitsForTheEndOfAOne : Prop :=
  decode (.st 0x8#4) = .ok .bitFall ∧
  ∀ s : State, s.build.legal = true →
    exec .bitFall s = .next (
      if s.pins.line = false then
        { s with st := if s.bitcnt.toNat = 40 then .check else .bitRise, tcnt := 0#16 }
      else if s.tcnt.toNat + 1 = s.build.edgeTimeoutUs then
        { s with st := .idle, tcnt := 0#16, bitcnt := 0#6, sr := 0#40, done := true, err := 0b10#2 }
      else { s with tcnt := s.tcnt + 1#16 })
    ∧ (s.st = .bitFall → lineOe s.st = false ∧ busy s.toBlock = true)
    ∧ (∀ t, step s = .next t → s.st ≠ .bitFall → t.st = .bitFall →
        s.st = .bitDly ∧ s.pins.line = true)

/-- The classification law (42_bit_sampler.md, "The classification law of the sampler"): the bit is the
line level SAMPLE_DELAY_US intervals after the first high sample of BIT_RISE, whatever the line shows
between. -/
def Obligations.BitIsTheLevelAfterTheSampleDelay : Prop :=
  ∀ s : State, s.build.legal = true → s.st = .bitRise →
    Undisturbed s (s.build.sampleDelayUs + 1) → (s.pinsAt 0).line = true →
    ∃ t, edges (s.build.sampleDelayUs + 1) s = .next t
      ∧ t.toBlock = { s.toBlock with
          sr := s.sr.extractLsb' 0 39 ++ BitVec.ofBool (s.pinsAt s.build.sampleDelayUs).line
          bitcnt := s.bitcnt + 1#6
          tcnt := 0#16
          st := if (s.pinsAt s.build.sampleDelayUs).line = true then .bitFall
            else if s.bitcnt.toNat + 1 = 40 then .check else .bitRise }

/-- Forty pulses that keep every wait within its limit are captured whole: the block enters CHECK with
the `k`-th bit of the line in `sr[39-k]`, each bit 1 exactly where its high outlasts SAMPLE_DELAY_US
(20_memory.md section 2, 42_bit_sampler.md "The classification law of the sampler"). -/
def Obligations.FrameOnTheLineIsTheFrameCaptured : Prop :=
  ∀ (s : State) (qs : List Pulse) (tail : Nat),
    s.build.legal = true → s.st = .bitRise → s.tcnt = 0#16 → s.bitcnt = 0#6 → s.sr = 0#40 →
    qs.length = 40 → PulsesFit s.build 0 qs tail →
    Undisturbed s (pulseLevels qs ++ List.replicate tail false).length →
    (∀ j < (pulseLevels qs ++ List.replicate tail false).length,
      (s.pinsAt j).line = (pulseLevels qs ++ List.replicate tail false).getD j true) →
    ∃ n t, n ≤ (pulseLevels qs ++ List.replicate tail false).length ∧ edges n s = .next t
      ∧ t.st = .check ∧ t.bitcnt = 40#6
      ∧ ∀ k, ∀ h : k < qs.length, t.sr.getLsbD (39 - k) = (qs[k]).bit s.build

/-- CHECK is entered only with all 40 bits in (42_bit_sampler.md, "A read samples exactly 40 bits"),
from the last bit's sample or its fall, and the line is driven high at that same edge. -/
def Obligations.CheckSeesAFullFrame : Prop :=
  ∀ s t : State, step s = .next t → s.st ≠ .check → t.st = .check →
    t.bitcnt = 40#6 ∧ (s.st = .bitDly ∨ s.st = .bitFall) ∧ s.pins.line = false
      ∧ lineOe t.st = true ∧ lineO t.st = true

/-! ## The validator and the sign extractor -/

/-- CHECK (43_validate.md R140) in plain arithmetic on the 40-bit frame: where the first four bytes sum
to the fifth modulo 256, humidity is the first two bytes and temperature the next fifteen bits negated
where bit 23 is set; otherwise ChecksumFailed, with `hum` and `temp` not written, and in a state of the
invariant still 0. It is entered at the edge that samples the last bit's low, and drives the line high
from there. -/
def Obligations.CheckValidatesAndDecodes : Prop :=
  decode (.st 0x9#4) = .ok .check ∧
  ∀ s : State, s.build.legal = true →
    exec .check s = .next (
      if (s.sr.toNat / 2 ^ 32 % 256 + s.sr.toNat / 2 ^ 24 % 256 + s.sr.toNat / 2 ^ 16 % 256
          + s.sr.toNat / 2 ^ 8 % 256) % 256 = s.sr.toNat % 256 then
        { s with
          st := .idle, tcnt := 0#16, bitcnt := 0#6, sr := 0#40, done := true, err := 0b00#2
          hum := BitVec.ofNat 16 (s.sr.toNat / 2 ^ 24)
          temp := BitVec.ofInt 16 (if s.sr.getLsbD 23 = true
            then -((s.sr.toNat / 2 ^ 8 % 2 ^ 15 : Nat) : Int)
            else ((s.sr.toNat / 2 ^ 8 % 2 ^ 15 : Nat) : Int)) }
      else
        { s with st := .idle, tcnt := 0#16, bitcnt := 0#6, sr := 0#40, done := true, err := 0b11#2 })
    ∧ (s.st = .check → lineOe s.st = true ∧ lineO s.st = true ∧ busy s.toBlock = true)
    ∧ (Inv s → s.st = .check → s.bitcnt = 40#6 ∧ s.hum = 0#16 ∧ s.temp = 0#16)
    ∧ (∀ t, step s = .next t → s.st ≠ .check → t.st = .check →
        s.pins.line = false ∧ lineOe t.st = true ∧ lineO t.st = true)

/-- The checksum validator (43_validate.md R141): the 10-bit sum of the first four bytes is exact, and
the frame passes where its low 8 bits are the fifth byte. -/
def Obligations.ChecksumIsTheSumModulo256 : Prop :=
  ∀ sr : Frame,
    (frameSum sr).toNat = (frameByte sr 0).toNat + (frameByte sr 1).toNat
      + (frameByte sr 2).toNat + (frameByte sr 3).toNat
    ∧ (checksumOK sr = true ↔ ((frameByte sr 0).toNat + (frameByte sr 1).toNat
      + (frameByte sr 2).toNat + (frameByte sr 3).toNat) % 256 = (frameByte sr 4).toNat)

/-- Humidity (43_validate.md R142): the first two bytes, the high byte first, unsigned; bit 15 is
data; and a CHECK that passes writes it to `hum` unchanged. -/
def Obligations.HumidityIsTheFirstTwoBytes : Prop :=
  ∀ s : State,
    (decodeHumidity s.sr).toNat = (frameByte s.sr 0).toNat * 256 + (frameByte s.sr 1).toNat
    ∧ (s.build.legal = true → checksumOK s.sr = true →
      ∃ t, exec .check s = .next t ∧ t.hum = decodeHumidity s.sr)

/-- The sign-bit extractor and the temperature (43_validate.md R143, R144): the field's low fifteen
bits are the magnitude, its bit 15 the sign; negative zero is zero, and -32768 never comes out. -/
def Obligations.TemperatureIsSignAndMagnitude : Prop :=
  ∀ sr : Frame,
    (magnitude (t16 sr)).toNat = ((frameByte sr 2).toNat * 256 + (frameByte sr 3).toNat) % 0x8000
    ∧ (signBit (t16 sr) = true ↔ 0x80 ≤ (frameByte sr 2).toNat)
    ∧ (decodeTemperature sr).toInt = (if signBit (t16 sr) = true
        then -((magnitude (t16 sr)).toNat : Int) else ((magnitude (t16 sr)).toNat : Int))
    ∧ decodeTemperature sr ≠ 0x8000#16

/-- The frame is big-endian in wire order (20_memory.md R53): `sr` is the five bytes, the first most
significant, and the two fields are their byte pairs. -/
def Obligations.FrameIsBigEndian : Prop :=
  ∀ sr : Frame,
    sr.toNat = (frameByte sr 0).toNat * 2 ^ 32 + (frameByte sr 1).toNat * 2 ^ 24
      + (frameByte sr 2).toNat * 2 ^ 16 + (frameByte sr 3).toNat * 2 ^ 8 + (frameByte sr 4).toNat
    ∧ h16 sr = frameByte sr 0 ++ frameByte sr 1 ∧ t16 sr = frameByte sr 2 ++ frameByte sr 3

/-! ## Unused codes -/

/-- ILL (30_encoding.md R72), for each unused code: IDLE with the datapath cleared and the results
kept, whatever `start` and the line show; while held, the line is driven high and the block is busy. -/
def Obligations.UnusedCodesRecoverToIdle : Prop :=
  ∀ s : State, s.build.legal = true →
    (∀ i ∈ [Instr.illA, .illB, .illC, .illD, .illE, .illF],
      exec i s = .next { s with st := .idle, tcnt := 0#16, bitcnt := 0#6, sr := 0#40 })
    ∧ (0xA ≤ (stBits s.st).toNat →
      lineOe s.st = true ∧ lineO s.st = true ∧ busy s.toBlock = true
      ∧ (s.pins.rst = false → s.pins.tick = true → ∃ t, step s = .next t
        ∧ t.toBlock = { s.toBlock with st := .idle, tcnt := 0#16, bitcnt := 0#6, sr := 0#40 }))

/-! ## Errors -/

/-- Error entry (60_exceptions.md R161), at the edge of the sample that exhausts a wait and at a CHECK
that does not match: the code and `done` are written, the frame is discarded, `hum` and `temp` are
kept (0 in a busy state of the invariant), and the line is driven high from the next interval. -/
def Obligations.ErrorEntryReportsAndRestoresTheLine : Prop :=
  ∀ s : State, s.build.legal = true → s.pins.rst = false → s.pins.tick = true →
    (Inv s → s.st ≠ .idle → s.hum = 0#16 ∧ s.temp = 0#16)
    ∧ (∀ w, waitOf s.build s.bitcnt s.st = some w → s.pins.line ≠ w.level →
      s.tcnt.toNat + 1 = w.limit → ∃ t, step s = .next t
        ∧ t.toBlock = { s.toBlock with
            st := .idle, tcnt := 0#16, bitcnt := 0#6, sr := 0#40, done := true
            err := if s.st = .hsAck then 0b01#2 else 0b10#2 }
        ∧ busy t.toBlock = false ∧ okFlag t.toBlock = false
        ∧ lineOe t.st = true ∧ lineO t.st = true)
    ∧ (s.st = .check → checksumOK s.sr = false → ∃ t, step s = .next t
        ∧ t.toBlock = { s.toBlock with
            st := .idle, tcnt := 0#16, bitcnt := 0#6, sr := 0#40, done := true, err := 0b11#2 }
        ∧ busy t.toBlock = false ∧ okFlag t.toBlock = false
        ∧ lineOe t.st = true ∧ lineO t.st = true)

/-- The three error kinds and who raises them (60_exceptions.md R160): a code that was not there
before the edge ends the read, and comes from the state the table names, at the last sample its wait
allows, none of which showed the level; IDLE, TRIG, REL and BIT_DLY raise none. -/
def Obligations.OnlyTheNamedStatesRaiseErrors : Prop :=
  (errCode .noResponse = 0b01#2 ∧ errCode .timeout = 0b10#2 ∧ errCode .checksumFailed = 0b11#2) ∧
  ∀ s t : State, step s = .next t →
    (t.err ≠ 0b00#2 → t.err ≠ s.err → t.st = .idle ∧ t.done = true)
    ∧ (t.err = 0b01#2 → s.err ≠ 0b01#2 →
      s.st = .hsAck ∧ s.tcnt.toNat + 1 = s.build.hsTimeoutUs ∧ s.pins.line = true)
    ∧ (t.err = 0b10#2 → s.err ≠ 0b10#2 →
      s.tcnt.toNat + 1 = s.build.edgeTimeoutUs
        ∧ (((s.st = .hsRise ∨ s.st = .bitRise) ∧ s.pins.line = false)
          ∨ ((s.st = .hsFall ∨ s.st = .bitFall) ∧ s.pins.line = true)))
    ∧ (t.err = 0b11#2 → s.err ≠ 0b11#2 → s.st = .check ∧ checksumOK s.sr = false)

/-- Priority at one enabled edge (60_exceptions.md section 3): reset over everything, the awaited level
over the timeout, and a START at the completion edge is ignored. -/
def Obligations.SimultaneousEventsHaveAPriority : Prop :=
  ∀ s : State, s.build.legal = true →
    (s.pins.rst = true → ∃ t, step s = .next t ∧ t.st = .idle ∧ t.done = false ∧ t.err = 0b00#2)
    ∧ (∀ w, s.pins.rst = false → s.pins.tick = true → waitOf s.build s.bitcnt s.st = some w →
        s.pins.line = w.level → ∃ t, step s = .next t
          ∧ t.toBlock = { s.toBlock with st := w.next, tcnt := 0#16 })
    ∧ (s.st = .check → s.pins.rst = false → s.pins.tick = true → s.pins.start = true →
        ∃ t, step s = .next t ∧ t.st = .idle ∧ t.done = true)

/-! ## Outputs -/

/-- The outputs are functions of the registers (10_state.md R30, R32): `busy` outside IDLE, the line
released in the six listening states, low in TRIG alone where driven; and `ok` is `done` with code
00. -/
def Obligations.OutputsFollowTheRegisters : Prop :=
  ∀ b : Block,
    (busy b = true ↔ b.st ≠ .idle)
    ∧ (lineOe b.st = false ↔ b.st ∈ [St.hsAck, .hsRise, .hsFall, .bitRise, .bitDly, .bitFall])
    ∧ (lineO b.st = false ↔ b.st = .trig)
    ∧ (okFlag b = true ↔ b.done = true ∧ b.err = 0b00#2)
    ∧ outputs b = { lineOe := lineOe b.st, lineO := lineO b.st, busy := busy b, done := b.done
                    ok := okFlag b, err := b.err, hum := b.hum, temp := b.temp }

/-- The outcome the host reads (40_host_interface.md R102): exactly one of a reading in tenths and the
three errors once a read has completed, and none before. -/
def Obligations.OutcomeIsReadFromTheResultRegisters : Prop :=
  ∀ b : Block,
    (busy b = true ∨ b.done = false → readOutcome b = none)
    ∧ (busy b = false → b.done = true →
        (b.err = 0b00#2 → readOutcome b = some (.reading b.temp.toInt b.hum.toNat))
        ∧ (b.err = 0b01#2 → readOutcome b = some (.failed .noResponse))
        ∧ (b.err = 0b10#2 → readOutcome b = some (.failed .timeout))
        ∧ (b.err = 0b11#2 → readOutcome b = some (.failed .checksumFailed)))

/-! ## Frames and whole-machine rules -/

/-- What the handshake and the waits leave unchanged: TRIG and REL, and each wait that has not ended in
IDLE, write `st` and `tcnt` alone (00_scope.md section 5, "A register a rule does not write keeps its
value"). -/
def Obligations.UnfinishedOperationsKeepFrameAndResults : Prop :=
  ∀ (s t : State), ∀ i ∈ [Instr.trig, .rel, .hsAck, .hsRise, .hsFall, .bitRise, .bitFall],
    exec i s = .next t → t.st ≠ .idle ∨ i = .trig ∨ i = .rel →
    t.bitcnt = s.bitcnt ∧ t.sr = s.sr ∧ t.done = s.done ∧ t.err = s.err
      ∧ t.hum = s.hum ∧ t.temp = s.temp
      ∧ t.build = s.build ∧ t.sched = s.sched ∧ t.edge = s.edge

/-- The result registers change only where a START is accepted, which clears all four, and where a
read completes, which sets `done` (20_memory.md section 4), reset apart. -/
def Obligations.ResultRegistersChangeTogether : Prop :=
  ∀ s t : State, step s = .next t → s.pins.rst = false →
    (t.done ≠ s.done ∨ t.err ≠ s.err ∨ t.hum ≠ s.hum ∨ t.temp ≠ s.temp) →
    (Accepts s ∧ t.done = false ∧ t.err = 0b00#2 ∧ t.hum = 0#16 ∧ t.temp = 0#16)
      ∨ (busy s.toBlock = true ∧ busy t.toBlock = false ∧ t.done = true)

/-- `hum` and `temp` are written only by reset, an accepted START (both cleared) and a CHECK that
succeeds: no failed read writes them (10_state.md section 4, Result registers). -/
def Obligations.OnlyASuccessfulCheckWritesAReading : Prop :=
  ∀ s t : State, step s = .next t → (t.hum ≠ s.hum ∨ t.temp ≠ s.temp) →
    s.pins.rst = true ∨ (Accepts s ∧ t.hum = 0#16 ∧ t.temp = 0#16)
      ∨ (s.st = .check ∧ checksumOK s.sr = true ∧ t.done = true ∧ t.err = 0b00#2)

/-- The frame register and the bit count move only at BIT_DLY's sampling edge, and are otherwise
cleared, on the way to IDLE or by an accepted START (20_memory.md section 1). -/
def Obligations.OnlyTheSampleShiftsTheFrame : Prop :=
  ∀ s t : State, step s = .next t → (t.sr ≠ s.sr ∨ t.bitcnt ≠ s.bitcnt) →
    (s.st = .bitDly ∧ s.tcnt.toNat + 1 = s.build.sampleDelayUs ∧ t.bitcnt = s.bitcnt + 1#6)
      ∨ ((t.st = .idle ∨ Accepts s) ∧ t.sr = 0#40 ∧ t.bitcnt = 0#6)

/-- Only an accepted START leaves IDLE, and nothing but reset, an error, a completion or an unused code
returns to it: the block never starts or retries a read by itself (40_host_interface.md). -/
def Obligations.OnlyAStartLeavesIdle : Prop :=
  ∀ s t : State, step s = .next t →
    (s.st = .idle → t.st ≠ .idle → Accepts s ∧ t.st = .trig)
    ∧ (s.st ≠ .idle → t.st = .idle →
        s.pins.rst = true ∨ t.done = true ∨ 0xA ≤ (stBits s.st).toNat)

/-- In every state of the invariant, a busy block shows no result, and a block that reports a failure
shows no reading; `ok` outside a read is what makes `hum` and `temp` a reading (20_memory.md section
6, 10_state.md section 5, 70_reset_and_hazards.md section 3). -/
def Obligations.NoResultWhileBusyOrFailed : Prop :=
  ∀ s : State, Inv s →
    (busy s.toBlock = true → s.done = false ∧ s.err = 0b00#2 ∧ s.hum = 0#16 ∧ s.temp = 0#16)
    ∧ (s.done = true → okFlag s.toBlock = false → s.hum = 0#16 ∧ s.temp = 0#16)
    ∧ (resultValid s.toBlock = true ↔
        s.done = true ∧ busy s.toBlock = false ∧ s.err = 0b00#2)

/-- Line events follow the one order of a read (20_memory.md section 6): a step that changes the state
goes to a successor the rules name. -/
def Obligations.StatesFollowTheOrderOfARead : Prop :=
  ∀ s t : State, step s = .next t → t.st ≠ s.st → t.st ∈ successors s.build s.st

/-- The block never samples its own drive (20_memory.md section 4): where it drives the line, the step
is the same whatever the wire shows. -/
def Obligations.LineIsNotReadWhileDriven : Prop :=
  ∀ s : State, s.build.legal = true → lineOe s.st = true → ∃ t,
    step (s.withPins { s.pins with line := true }) = .next t
      ∧ step (s.withPins { s.pins with line := false }) = .next t

/-- A block shares no state with anything (60_exceptions.md section 5, 10_state.md section 2): what an
edge does to its registers depends on its registers, its build parameters and the inputs sampled at that
edge alone. -/
def Obligations.BlockSharesNoState : Prop :=
  ∀ s s' : State, s.build.legal = true → s'.build = s.build → s'.toBlock = s.toBlock →
    s'.pins = s.pins →
    ∃ t t', step s = .next t ∧ step s' = .next t' ∧ t'.toBlock = t.toBlock

/-- With `tick` and `rst` at 0 every register is frozen, for as long as that lasts (60_exceptions.md
section 5, 00_scope.md section 5). -/
def Obligations.StoppedTickFreezesTheBlock : Prop :=
  ∀ (n : Nat) (s : State), s.build.legal = true →
    (∀ j < n, (s.pinsAt j).rst = false ∧ (s.pinsAt j).tick = false) →
    ∃ t, edges n s = .next t ∧ t.toBlock = s.toBlock

/-- In IDLE the results stay until the next START or reset, whatever the line does
(20_memory.md section 6, 41_handshake.md section 2). -/
def Obligations.ResultsHoldUntilStartOrReset : Prop :=
  ∀ (n : Nat) (s : State), s.build.legal = true → s.st = .idle → Quiet s n →
    ∃ t, edges n s = .next t ∧ t.toBlock = s.toBlock

/-! ## Whole reads -/

/-- The length of the shortest successful read (60_exceptions.md section 2): whatever the inputs show
after the START, fewer edges than
`3 + TRIG_TICKS + 1 + 2*ACK_HIGH_PHASE + 40*(1 + SAMPLE_DELAY_US)`, the START edge counted, never bring a
block that accepts a START to IDLE with a success; and for every legal build some waveform brings it
there after exactly so many, 19246 at the decided values. -/
def Obligations.ShortestSuccessfulRead : Prop :=
  (∀ (s : State) (k : Nat) (t : State), s.build.legal = true → Accepts s → 0 < k →
    k < 3 + s.build.triggerLowMs * 1000 + 1 + 2 * s.build.ackHighPhase
      + 40 * (1 + s.build.sampleDelayUs) →
    edges k s = .next t → ¬ (t.st = .idle ∧ t.done = true ∧ t.err = 0b00#2))
  ∧ (∀ p : Params, p.legal = true → ∃ s t : State, s.build = p ∧ Accepts s
    ∧ Undisturbed s (3 + p.triggerLowMs * 1000 + 1 + 2 * p.ackHighPhase + 40 * (1 + p.sampleDelayUs))
    ∧ edges (3 + p.triggerLowMs * 1000 + 1 + 2 * p.ackHighPhase + 40 * (1 + p.sampleDelayUs)) s
      = .next t
    ∧ t.st = .idle ∧ t.done = true ∧ t.err = 0b00#2)
  ∧ ∃ s t : State, s.build = Params.decided ∧ Accepts s ∧ Undisturbed s 19246
    ∧ edges 19246 s = .next t ∧ t.st = .idle ∧ t.done = true ∧ t.err = 0b00#2

/-- Every read ends (60_exceptions.md section 2, "Every read terminates"; 40_host_interface.md): for
every line waveform and every use of `start`, a read that no reset and no stopped tick disturbs is back
in IDLE with `done` within D_MAX enabled edges, its START edge counted, and busy until then. -/
def Obligations.EveryReadEndsWithinDMax : Prop :=
  ∀ s : State, s.build.legal = true → Accepts s → Undisturbed s s.build.dMax →
    ∃ k t, 0 < k ∧ k ≤ s.build.dMax ∧ edges k s = .next t ∧ t.st = .idle ∧ t.done = true
      ∧ ∀ j, 0 < j → j < k → ∃ u, edges j s = .next u ∧ busy u.toBlock = true

/-- A read whose line stays high through every sample of HS_ACK ends in NoResponse after exactly
2 + TRIG_TICKS + HS_TIMEOUT_US enabled edges, its START edge counted (60_exceptions.md section 2,
41_handshake.md section 3). -/
def Obligations.SilentSensorEndsInNoResponse : Prop :=
  ∀ s : State, s.build.legal = true → Accepts s → Undisturbed s s.build.noResponseEdges →
    (∀ j < s.build.hsTimeoutUs, (s.pinsAt (2 + s.build.triggerLowMs * 1000 + j)).line = true) →
    (∃ t, edges (2 + s.build.triggerLowMs * 1000 + s.build.hsTimeoutUs) s = .next t
      ∧ t.toBlock = { st := .idle, tcnt := 0#16, bitcnt := 0#6, sr := 0#40
                      done := true, err := 0b01#2, hum := 0#16, temp := 0#16 })
    ∧ ∀ j, 0 < j → j < 2 + s.build.triggerLowMs * 1000 + s.build.hsTimeoutUs →
      ∃ u, edges j s = .next u ∧ busy u.toBlock = true

/-- A whole read against a sensor that answers within every limit: whatever `start` does meanwhile, it
ends in IDLE with the frame on the line judged by the checksum, and its humidity and temperature
reported where it passes (43_validate.md section 1; 20_memory.md section 2; 41_handshake.md section 2).
`F` is the frame whose `k`-th bit from the top is the `k`-th pulse's. -/
def Obligations.ReadReportsTheFrameOnTheLine : Prop :=
  ∀ (s : State) (a : Answer) (F : Frame),
    s.build.legal = true → Accepts s → a.Fits s.build →
    Undisturbed s (3 + s.build.triggerLowMs * 1000 + (a.levels s.build).length) →
    (∀ j < (a.levels s.build).length,
      (s.pinsAt (2 + s.build.triggerLowMs * 1000 + j)).line = (a.levels s.build).getD j true) →
    (∀ k, ∀ h : k < a.pulses.length, F.getLsbD (39 - k) = (a.pulses[k]).bit s.build) →
    ∃ n t, n ≤ 3 + s.build.triggerLowMs * 1000 + (a.levels s.build).length
      ∧ edges n s = .next t ∧ t.st = .idle ∧ t.done = true
      ∧ (if checksumOK F = true
          then t.err = 0b00#2 ∧ t.hum = decodeHumidity F ∧ t.temp = decodeTemperature F
          else t.err = 0b11#2 ∧ t.hum = 0#16 ∧ t.temp = 0#16)
end

