-- ==== Sys2Proof/Laws/Operands.lean ====
section
/-!
SUPPORT. The operands of 30_encoding.md R79 as numbers.
-/

namespace Sys2Proof.Machine

/-- A byte of the frame is a base-256 digit of it (20_memory.md R51). -/
theorem frameByte_toNat (sr : Frame) (i : Fin 5) :
    (frameByte sr i).toNat = sr.toNat / 2 ^ (32 - 8 * i.val) % 256 := by
  simp [frameByte, Nat.shiftRight_eq_div_pow]

/-- The temperature field is its two bytes, the high one first (20_memory.md R53). -/
theorem t16_toNat (sr : Frame) :
    (t16 sr).toNat = (frameByte sr 2).toNat * 256 + (frameByte sr 3).toNat := by
  have h := (frameByte sr 3).isLt
  simp only [t16, BitVec.toNat_append]
  rw [Nat.shiftLeft_eq, ← Nat.mul_comm, ← Nat.two_pow_add_eq_or_of_lt h]

/-- The sign bit is set exactly in the upper half of the field's values. -/
theorem signBit_iff (t : BitVec 16) : signBit t = true ↔ 0x8000 ≤ t.toNat := by
  have := t.isLt
  simp [signBit, BitVec.getLsbD, Nat.testBit_eq_decide_div_mod_eq]
  omega

/-- The magnitude is the field with its sign bit cleared. -/
theorem magnitude_toNat (t : BitVec 16) : (magnitude t).toNat = t.toNat % 0x8000 := by
  simp [magnitude]
  omega

end Sys2Proof.Machine
end

