-- ==== Sys2Proof/Laws/State.lean ====
section
/-!
SUPPORT. What each update of the block and of the state does to each field.
-/

namespace Sys2Proof.Machine

@[simp] theorem enter_st (n : St) (b : Block) : (enter n b).st = n := rfl

@[simp] theorem enter_tcnt (n : St) (b : Block) : (enter n b).tcnt = 0#16 := rfl

@[simp] theorem enter_bitcnt (n : St) (b : Block) : (enter n b).bitcnt = b.bitcnt := rfl

@[simp] theorem enter_sr (n : St) (b : Block) : (enter n b).sr = b.sr := rfl

@[simp] theorem enter_done (n : St) (b : Block) : (enter n b).done = b.done := rfl

@[simp] theorem enter_err (n : St) (b : Block) : (enter n b).err = b.err := rfl

@[simp] theorem enter_hum (n : St) (b : Block) : (enter n b).hum = b.hum := rfl

@[simp] theorem enter_temp (n : St) (b : Block) : (enter n b).temp = b.temp := rfl

@[simp] theorem countTick_st (b : Block) : (countTick b).st = b.st := rfl

@[simp] theorem countTick_tcnt (b : Block) : (countTick b).tcnt = b.tcnt + 1#16 := rfl

@[simp] theorem countTick_bitcnt (b : Block) : (countTick b).bitcnt = b.bitcnt := rfl

@[simp] theorem countTick_sr (b : Block) : (countTick b).sr = b.sr := rfl

@[simp] theorem countTick_done (b : Block) : (countTick b).done = b.done := rfl

@[simp] theorem countTick_err (b : Block) : (countTick b).err = b.err := rfl

@[simp] theorem countTick_hum (b : Block) : (countTick b).hum = b.hum := rfl

@[simp] theorem countTick_temp (b : Block) : (countTick b).temp = b.temp := rfl

@[simp] theorem toIdle_st (b : Block) : (toIdle b).st = .idle := rfl

@[simp] theorem toIdle_tcnt (b : Block) : (toIdle b).tcnt = 0#16 := rfl

@[simp] theorem toIdle_bitcnt (b : Block) : (toIdle b).bitcnt = 0#6 := rfl

@[simp] theorem toIdle_sr (b : Block) : (toIdle b).sr = 0#40 := rfl

@[simp] theorem toIdle_done (b : Block) : (toIdle b).done = b.done := rfl

@[simp] theorem toIdle_err (b : Block) : (toIdle b).err = b.err := rfl

@[simp] theorem toIdle_hum (b : Block) : (toIdle b).hum = b.hum := rfl

@[simp] theorem toIdle_temp (b : Block) : (toIdle b).temp = b.temp := rfl

@[simp] theorem raiseError_st (e : ErrKind) (b : Block) : (raiseError e b).st = .idle := rfl

@[simp] theorem raiseError_tcnt (e : ErrKind) (b : Block) : (raiseError e b).tcnt = 0#16 := rfl

@[simp] theorem raiseError_bitcnt (e : ErrKind) (b : Block) : (raiseError e b).bitcnt = 0#6 := rfl

@[simp] theorem raiseError_sr (e : ErrKind) (b : Block) : (raiseError e b).sr = 0#40 := rfl

@[simp] theorem raiseError_done (e : ErrKind) (b : Block) : (raiseError e b).done = true := rfl

@[simp] theorem raiseError_err (e : ErrKind) (b : Block) : (raiseError e b).err = errCode e := rfl

@[simp] theorem raiseError_hum (e : ErrKind) (b : Block) : (raiseError e b).hum = b.hum := rfl

@[simp] theorem raiseError_temp (e : ErrKind) (b : Block) : (raiseError e b).temp = b.temp := rfl

@[simp] theorem acceptStart_st (b : Block) : (acceptStart b).st = .trig := rfl

@[simp] theorem acceptStart_tcnt (b : Block) : (acceptStart b).tcnt = 0#16 := rfl

@[simp] theorem acceptStart_bitcnt (b : Block) : (acceptStart b).bitcnt = 0#6 := rfl

@[simp] theorem acceptStart_sr (b : Block) : (acceptStart b).sr = 0#40 := rfl

@[simp] theorem acceptStart_done (b : Block) : (acceptStart b).done = false := rfl

@[simp] theorem acceptStart_err (b : Block) : (acceptStart b).err = errNone := rfl

@[simp] theorem acceptStart_hum (b : Block) : (acceptStart b).hum = 0x0000#16 := rfl

@[simp] theorem acceptStart_temp (b : Block) : (acceptStart b).temp = 0x0000#16 := rfl

@[simp] theorem State.advance_toBlock (s : State) : s.advance.toBlock = s.toBlock := rfl

@[simp] theorem State.advance_build (s : State) : s.advance.build = s.build := rfl

@[simp] theorem State.advance_sched (s : State) : s.advance.sched = s.sched.tail := rfl

@[simp] theorem State.advance_edge (s : State) : s.advance.edge = s.edge + 1 := rfl

@[simp] theorem State.withPins_toBlock (s : State) (p : Pins) : (s.withPins p).toBlock = s.toBlock := rfl

@[simp] theorem State.withPins_build (s : State) (p : Pins) : (s.withPins p).build = s.build := rfl

@[simp] theorem State.withPins_sched (s : State) (p : Pins) : (s.withPins p).sched = p :: s.sched.tail := rfl

@[simp] theorem State.withPins_edge (s : State) (p : Pins) : (s.withPins p).edge = s.edge := rfl

@[simp] theorem State.withPins_pins (s : State) (p : Pins) : (s.withPins p).pins = p := rfl

/-- The edge has passed: the input after it comes up. -/
@[simp] theorem State.advance_pinsAt (s : State) (j : Nat) : s.advance.pinsAt j = s.pinsAt (j + 1) := by
  unfold State.pinsAt State.advance
  have h : s.edge + 1 + j = s.edge + (j + 1) := by omega
  cases s.sched <;> simp [h]

theorem State.advance_pins (s : State) : s.advance.pins = s.pinsAt 1 := State.advance_pinsAt s 0

/-- The next inputs depend on the schedule and the edge number alone. -/
theorem State.pinsAt_congr {s t : State} (hs : t.sched = s.sched) (he : t.edge = s.edge) (j : Nat) :
    t.pinsAt j = s.pinsAt j := by
  simp [State.pinsAt, hs, he]

end Sys2Proof.Machine
end

