-- ==== Sys2Proof/Laws/Ops.lean ====
section
/-!
SUPPORT. One lemma per shared operation: everything it can do.
-/

namespace Sys2Proof.Machine

/-- The bounded wait ends, raises its error or counts (41_handshake.md R110). -/
theorem wait_cases (level : Level) (limit : Nat) (next : St) (e : ErrKind) (line : Level) (b : Block) :
    (line = level ∧ wait level limit next e line b = enter next b)
      ∨ (line ≠ level ∧ b.tcnt.toNat = limit - 1 ∧ wait level limit next e line b = raiseError e b)
      ∨ (line ≠ level ∧ b.tcnt.toNat ≠ limit - 1 ∧ wait level limit next e line b = countTick b) := by
  unfold wait
  split
  · exact .inl ⟨‹_›, rfl⟩
  · split
    · exact .inr (.inl ⟨‹_›, ‹_›, rfl⟩)
    · exact .inr (.inr ⟨‹_›, ‹_›, rfl⟩)

/-- An operation of a legal build completes. -/
theorem clocked_legal {s : State} (h : s.build.legal = true) (f : Params → Pins → Block → Block) :
    clocked f s = .next { s with toBlock := f s.build s.pins s.toBlock } := by
  simp [clocked, h]

/-- An operation of an illegal build is refused (00_scope.md R11). -/
theorem clocked_illegal {s : State} (h : s.build.legal = false) (f : Params → Pins → Block → Block) :
    clocked f s = .refused .illegalBuild := by
  simp [clocked, h]

/-- An operation that answers a next state ran on a legal build, and changed registers alone. -/
theorem clocked_next {s t : State} {f : Params → Pins → Block → Block} (h : clocked f s = .next t) :
    s.build.legal = true ∧ t = { s with toBlock := f s.build s.pins s.toBlock } := by
  unfold clocked at h
  split at h
  · exact ⟨‹_›, (Host.Outcome.next.inj h).symm⟩
  · cases h

/-- The register function of each operation. -/
def opBlock (i : Instr) (p : Params) (x : Pins) (b : Block) : Block :=
  match i with
  | .idle => idleOp x.start b
  | .trig => trigOp p b
  | .rel => relOp b
  | .hsAck => hsAckOp p x.line b
  | .hsRise => hsRiseOp p x.line b
  | .hsFall => hsFallOp p x.line b
  | .bitRise => bitRiseOp p x.line b
  | .bitDly => bitDlyOp p x.line b
  | .bitFall => bitFallOp p x.line b
  | .check => checkOp b
  | .illA => illOp b
  | .illB => illOp b
  | .illC => illOp b
  | .illD => illOp b
  | .illE => illOp b
  | .illF => illOp b
  | .start => startOp p x.line b
  | .reset => resetOp b

/-- Every meaning is its register function at an edge of a legal build. -/
theorem exec_eq_clocked (i : Instr) (s : State) : exec i s = clocked (opBlock i) s := by
  cases i <;> rfl

/-- The registers after the coming edge (00_scope.md R13). -/
def edgeBlock (s : State) : Block :=
  if s.pins.rst then Block.reset
  else if s.pins.tick then
    if s.pins.start = true ∧ s.st = .idle then acceptStart s.toBlock
    else ownOp s.build s.pins.line s.toBlock
  else s.toBlock

/-- The four rows of 30_encoding.md R77. -/
theorem opAt_eq (rst start : Bool) (st : St) :
    opAt (hostinWord rst start) st
      = if rst then .reset else if start = true ∧ st = .idle then .start else opOf st := by
  cases rst <;> cases start <;> cases st <;> rfl

/-- A state's own operation, with no START presented, is `ownOp`. -/
theorem opBlock_opOf (p : Params) (x : Pins) (b : Block) (h : x.start = true → b.st ≠ .idle) :
    opBlock (opOf b.st) p x b = ownOp p x.line b := by
  cases hs : b.st <;> simp [opOf, opBlock, ownOp, hs]
  cases hx : x.start
  · rfl
  · exact absurd hs (h hx)

/-- The operation a step selects does `edgeBlock`. -/
theorem exec_selected {s : State} {i : Instr} (hi : s.selected = some i) :
    exec i s = clocked (fun _ _ _ => edgeBlock s) s := by
  unfold State.selected at hi
  split at hi
  · rename_i hen
    obtain rfl := Option.some.inj hi
    rw [exec_eq_clocked, opAt_eq]
    unfold clocked
    congr 3
    unfold edgeBlock
    split
    · rfl
    · rw [if_pos (by simpa [*] using hen : s.pins.tick = true)]
      split
      · rename_i hst
        simp [opBlock, startOp, hst.2]
      · rename_i hst
        rw [opBlock_opOf _ _ _ (fun h h' => hst ⟨h, h'⟩)]
  · cases hi

/-- Where a step selects no operation, `edgeBlock` changes nothing. -/
theorem holdEdge_unselected {s : State} (hi : s.selected = none) :
    holdEdge s = clocked (fun _ _ _ => edgeBlock s) s := by
  unfold State.selected at hi
  split at hi
  · cases hi
  · rename_i hen
    simp only [Bool.or_eq_true, not_or, Bool.not_eq_true] at hen
    simp [holdEdge, clocked, edgeBlock, hen.1, hen.2]

/-- What one step does, once and for all. -/
theorem step_eq (s : State) :
    step s = if s.build.legal then .next { s.advance with toBlock := edgeBlock s }
      else .refused .illegalBuild := by
  unfold step
  cases hi : s.selected with
  | none =>
    simp only [holdEdge_unselected hi]
    cases h : s.build.legal <;> simp [clocked, h, State.advance]
  | some i =>
    simp only [exec_selected hi]
    cases h : s.build.legal <;> simp [clocked, h, State.advance]

/-- A step of a legal build goes on. -/
theorem step_legal {s : State} (h : s.build.legal = true) :
    step s = .next { s.advance with toBlock := edgeBlock s } := by
  simp [step_eq, h]

/-- A step that goes on ran on a legal build, moved the inputs on and changed registers alone. -/
theorem step_next {s t : State} (h : step s = .next t) :
    s.build.legal = true ∧ t = { s.advance with toBlock := edgeBlock s } := by
  rw [step_eq] at h
  split at h
  · exact ⟨‹_›, (Host.Outcome.next.inj h).symm⟩
  · cases h

/-- Runs of edges are the host's runs of the machine. -/
theorem edges_eq_run (n : Nat) (s : State) : edges n s = Sys2Proof.core.run n s := by
  induction n generalizing s with
  | zero => rfl
  | succ n ih =>
    have hc : Sys2Proof.core.step s = step s := rfl
    cases h : step s with
    | next t => simp only [edges, Host.Core.run, hc, h]; exact ih t
    | fault r => simp only [edges, Host.Core.run, hc, h]; rfl
    | refused r => simp only [edges, Host.Core.run, hc, h]; rfl

/-- One more edge at the front of a run. -/
theorem edges_succ {s t : State} (h : step s = .next t) (n : Nat) : edges (n + 1) s = edges n t := by
  simp [edges, h]

end Sys2Proof.Machine
end

