-- ==== Sys2Proof/Laws/PerInstr.lean ====
section
/-!
SUPPORT. Statements about each instruction as a term. RowWord: the word the encoder writes is a word of
the operation's own opcode-table row (opcode_table.json), and the decoder does not refuse it.
-/

namespace Sys2Proof.Laws.RowWord

/-- The encoder's word is of the operation's row, and decodes to some operation. -/
def Statement (i : Instr) : Prop :=
  (opRow i).covers (encode i) = true ∧ (decode (encode i)).isOk = true

theorem idle : Statement .idle := ⟨rfl, rfl⟩

theorem trig : Statement .trig := ⟨rfl, rfl⟩

theorem rel : Statement .rel := ⟨rfl, rfl⟩

theorem hsAck : Statement .hsAck := ⟨rfl, rfl⟩

theorem hsRise : Statement .hsRise := ⟨rfl, rfl⟩

theorem hsFall : Statement .hsFall := ⟨rfl, rfl⟩

theorem bitRise : Statement .bitRise := ⟨rfl, rfl⟩

theorem bitDly : Statement .bitDly := ⟨rfl, rfl⟩

theorem bitFall : Statement .bitFall := ⟨rfl, rfl⟩

theorem check : Statement .check := ⟨rfl, rfl⟩

theorem illA : Statement .illA := ⟨rfl, rfl⟩

theorem illB : Statement .illB := ⟨rfl, rfl⟩

theorem illC : Statement .illC := ⟨rfl, rfl⟩

theorem illD : Statement .illD := ⟨rfl, rfl⟩

theorem illE : Statement .illE := ⟨rfl, rfl⟩

theorem illF : Statement .illF := ⟨rfl, rfl⟩

theorem start : Statement .start := ⟨rfl, rfl⟩

theorem reset : Statement .reset := ⟨rfl, rfl⟩

end Sys2Proof.Laws.RowWord
end

