-- ==== Sys2Proof/Laws/Runs.lean ====
section
/-!
SUPPORT. What one edge can do to the block, and how runs of several edges are put together.
-/

namespace Sys2Proof.Machine

/-! ## Limits -/

/-- A legal build's parameters lie in their ranges (00_scope.md R9). -/
theorem limits {p : Params} (h : p.legal = true) :
    18 ≤ p.triggerLowMs ∧ p.triggerLowMs ≤ 65 ∧ 1 ≤ p.hsTimeoutUs ∧ p.hsTimeoutUs ≤ 65535
      ∧ 1 ≤ p.edgeTimeoutUs ∧ p.edgeTimeoutUs ≤ 65535
      ∧ 1 ≤ p.sampleDelayUs ∧ p.sampleDelayUs ≤ 65535 ∧ p.ackHighPhase ≤ 1 := by
  simp [Params.legal] at h
  omega

/-- A bit count that has room counts up without wrapping. -/
theorem bitcnt_succ (n : BitCount) (h : n.toNat ≤ 39) : (n + 1#6).toNat = n.toNat + 1 := by
  simp only [BitVec.toNat_add, BitVec.toNat_ofNat]
  omega

/-- A right-aligned partial frame takes one more bit. -/
theorem shiftIn_lt (sr : Frame) (l : Level) (n : Nat) (h : sr.toNat < 2 ^ n) :
    (shiftIn sr l).toNat < 2 ^ (n + 1) := by
  have hsr : (shiftIn sr l).toNat = sr.toNat % 2 ^ 39 * 2 + l.toNat := by
    simp only [shiftIn, BitVec.toNat_concat, BitVec.extractLsb'_toNat, Nat.shiftRight_zero]
  have := Nat.mod_le sr.toNat (2 ^ 39)
  have := Bool.toNat_le l
  rw [hsr, pow_succ]
  omega

/-! ## Waiting states -/

/-- A waiting state's own operation is its WAIT (41_handshake.md R110). -/
theorem waitOf_own (p : Params) (n : BitCount) (w : WaitFor) (b : Block) (l : Level)
    (hw : waitOf p n b.st = some w) (hn : b.bitcnt = n) :
    ownOp p l b = wait w.level w.limit w.next w.err l b := by
  cases hs : b.st <;> simp [waitOf, hs] at hw <;> subst hw <;>
    simp [ownOp, hs, hsAckOp, hsRiseOp, hsFallOp, bitRiseOp, bitFallOp, afterAck, afterFall, hn,
      Config.frameBits]

/-- A waiting state of a legal build has a positive limit that fits the counter, and an error code. -/
theorem waitOf_limit {p : Params} {n : BitCount} {st : St} {w : WaitFor} (h : p.legal = true)
    (hw : waitOf p n st = some w) :
    1 ≤ w.limit ∧ w.limit ≤ 65535 ∧ st ≠ .idle
      ∧ errCode w.err = (if st = .hsAck then 0b01#2 else 0b10#2) := by
  have := limits h
  cases st <;> simp [waitOf] at hw <;> subst hw <;> simp [errCode] <;> omega

/-! ## One edge -/

/-- What a state's own operation can do to the registers. -/
inductive Own (p : Params) (l : Level) (b : Block) : Block → Prop
  | idle : b.st = .idle → Own p l b b
  | trigEnd : b.st = .trig → b.tcnt.toNat = p.trigTicks - 1 → Own p l b (enter .rel b)
  | trigCount : b.st = .trig → b.tcnt.toNat ≠ p.trigTicks - 1 → Own p l b (countTick b)
  | rel : b.st = .rel → Own p l b (enter .hsAck b)
  | seen (w : WaitFor) : waitOf p b.bitcnt b.st = some w → l = w.level → Own p l b (enter w.next b)
  | exhausted (w : WaitFor) : waitOf p b.bitcnt b.st = some w → l ≠ w.level →
      b.tcnt.toNat = w.limit - 1 → Own p l b (raiseError w.err b)
  | waiting (w : WaitFor) : waitOf p b.bitcnt b.st = some w → l ≠ w.level →
      b.tcnt.toNat ≠ w.limit - 1 → Own p l b (countTick b)
  | delay : b.st = .bitDly → b.tcnt.toNat ≠ p.sampleDelayUs - 1 → Own p l b (countTick b)
  | sample : b.st = .bitDly → b.tcnt.toNat = p.sampleDelayUs - 1 →
      Own p l b { b with
        sr := shiftIn b.sr l, bitcnt := b.bitcnt + 1#6, tcnt := 0#16, st := afterSample l b.bitcnt }
  | valid : b.st = .check → checksumOK b.sr = true →
      Own p l b { toIdle b with
        hum := decodeHumidity b.sr, temp := decodeTemperature b.sr, err := errNone, done := true }
  | invalid : b.st = .check → checksumOK b.sr = false → Own p l b (raiseError .checksumFailed b)
  | unused : 0xA ≤ (stBits b.st).toNat → Own p l b (toIdle b)

/-- Every state's own operation is one of the cases of `Own`. -/
theorem own_ownOp (p : Params) (l : Level) (b : Block) : Own p l b (ownOp p l b) := by
  cases hs : b.st
  case idle => simp only [ownOp, hs]; exact .idle hs
  case trig => simp only [ownOp, hs, trigOp]; split; exacts [.trigEnd hs ‹_›, .trigCount hs ‹_›]
  case rel => simp only [ownOp, hs]; exact .rel hs
  case bitDly => simp only [ownOp, hs, bitDlyOp]; split; exacts [.sample hs ‹_›, .delay hs ‹_›]
  case check =>
    simp only [ownOp, hs, checkOp]
    split
    · exact .valid hs ‹_›
    · exact .invalid hs (by simpa using ‹¬ checksumOK b.sr = true›)
  case illA | illB | illC | illD | illE | illF =>
    simp only [ownOp, hs]; exact .unused (by rw [hs]; decide)
  all_goals
    have hw : ∃ w, waitOf p b.bitcnt b.st = some w := by simp [waitOf, hs]
    obtain ⟨w, hw⟩ := hw
    rw [waitOf_own p b.bitcnt w b l hw rfl]
    rcases wait_cases w.level w.limit w.next w.err l b with ⟨a, e⟩ | ⟨a, c, e⟩ | ⟨a, c, e⟩ <;> rw [e]
    · exact .seen w hw a
    · exact .exhausted w hw a c
    · exact .waiting w hw a c

/-- What an edge does: reset, an accepted START, nothing, or the state's own operation. -/
theorem edgeBlock_cases (s : State) :
    (s.pins.rst = true ∧ edgeBlock s = Block.reset)
      ∨ (s.pins.rst = false ∧ Accepts s ∧ edgeBlock s = acceptStart s.toBlock)
      ∨ (s.pins.rst = false ∧ edgeBlock s = s.toBlock)
      ∨ (s.pins.rst = false ∧ edgeBlock s = ownOp s.build s.pins.line s.toBlock) := by
  unfold edgeBlock Accepts
  cases h : s.pins.rst <;> cases h2 : s.pins.tick <;> simp
  by_cases h3 : s.pins.start = true ∧ s.st = .idle
  · simp [h3]
  · rw [if_neg h3]
    right; right
    intro a b
    exact absurd ⟨a, b⟩ h3

/-- The registers after a step. -/
theorem step_toBlock {s t : State} (h : step s = .next t) : t.toBlock = edgeBlock s := by
  obtain ⟨_, rfl⟩ := step_next h
  rfl

/-! ## Runs -/

/-- A run goes on where an earlier run ended. -/
theorem edges_add {n : Nat} {s t : State} (h : edges n s = .next t) (m : Nat) :
    edges (n + m) s = edges m t := by
  induction n generalizing s with
  | zero => simp [edges] at h; subst h; simp
  | succ n ih =>
    rw [Nat.add_right_comm]
    simp only [edges] at h ⊢
    cases hs : step s with
    | next u => simp only [hs] at h ⊢; exact ih h
    | fault r => cases r
    | refused r => simp [hs] at h

/-- A run keeps the build, and takes one input an edge. -/
theorem edges_pinsAt {n : Nat} {s t : State} (h : edges n s = .next t) :
    t.build = s.build ∧ ∀ j, t.pinsAt j = s.pinsAt (n + j) := by
  induction n generalizing s with
  | zero => simp [edges] at h; subst h; simp
  | succ n ih =>
    simp only [edges] at h
    cases hs : step s with
    | next u =>
      simp only [hs] at h
      obtain ⟨hb, hp⟩ := ih h
      obtain ⟨_, rfl⟩ := step_next hs
      refine ⟨by rw [hb]; rfl, fun j => ?_⟩
      rw [hp, State.pinsAt_congr (t := { s.advance with toBlock := edgeBlock s }) (s := s.advance)
        rfl rfl, State.advance_pinsAt]
      congr 1
      omega
    | fault r => cases r
    | refused r => simp [hs] at h

/-- One more edge at the end of a run of a legal build. -/
theorem edges_last {n : Nat} {s t : State} (h : s.build.legal = true) (hr : edges n s = .next t) :
    edges (n + 1) s = .next { t.advance with toBlock := edgeBlock t } := by
  have hl : t.build.legal = true := by rw [(edges_pinsAt hr).1]; exact h
  rw [edges_add hr 1]
  simp [edges, step_legal hl]

/-- One more enabled edge outside IDLE at the end of a run performs the state's own operation. -/
theorem edges_own {n : Nat} {s t : State} (h : s.build.legal = true) (hr : edges n s = .next t)
    (hu : (s.pinsAt n).rst = false ∧ (s.pinsAt n).tick = true) (hi : t.st ≠ .idle) :
    ∃ u, edges (n + 1) s = .next u ∧ u.toBlock = ownOp s.build (s.pinsAt n).line t.toBlock := by
  obtain ⟨hb, hp⟩ := edges_pinsAt hr
  have hp0 : t.pins = s.pinsAt n := hp 0
  refine ⟨_, edges_last h hr, ?_⟩
  show edgeBlock t = _
  simp [edgeBlock, hp0, hu.1, hu.2, hi, hb]

/-- A state whose own operation counts at each of `n` enabled edges has counted `n` ticks. -/
theorem edges_count {s : State} (h : s.build.legal = true) (n : Nat) (hu : Undisturbed s n)
    (hst : s.st ≠ .idle)
    (hc : ∀ j < n, ∀ b : Block, b = { s.toBlock with tcnt := s.tcnt + BitVec.ofNat 16 j } →
      ownOp s.build (s.pinsAt j).line b = countTick b) :
    ∃ t, edges n s = .next t ∧ t.toBlock = { s.toBlock with tcnt := s.tcnt + BitVec.ofNat 16 n } := by
  induction n with
  | zero => exact ⟨s, rfl, by simp⟩
  | succ n ih =>
    obtain ⟨t, ht, hb⟩ := ih (fun j hj => hu j (by omega)) (fun j hj => hc j (by omega))
    obtain ⟨u, hu', hb'⟩ := edges_own h ht (hu n (by omega)) (by rw [hb]; exact hst)
    refine ⟨u, hu', ?_⟩
    rw [hb', hc n (by omega) _ hb, hb]
    simp only [countTick, BitVec.add_assoc, BitVec.ofNat_add]

/-- Edges that each leave the registers alone leave them alone together. -/
theorem edges_hold {s : State} (h : s.build.legal = true) (n : Nat)
    (hk : ∀ j < n, ∀ t : State, t.pins = s.pinsAt j → t.toBlock = s.toBlock →
      edgeBlock t = t.toBlock) :
    ∃ t, edges n s = .next t ∧ t.toBlock = s.toBlock := by
  induction n with
  | zero => exact ⟨s, rfl, rfl⟩
  | succ n ih =>
    obtain ⟨t, ht, hb⟩ := ih (fun j hj => hk j (by omega))
    have hp0 : t.pins = s.pinsAt n := (edges_pinsAt ht).2 0
    refine ⟨_, edges_last h ht, ?_⟩
    show edgeBlock t = _
    rw [hk n (by omega) t hp0 hb, hb]

end Sys2Proof.Machine
end

