-- ==== Sys2Proof/Machine/Stimulus.lean ====
section
/-!
DEFINITION. The stimulus language of 30_encoding.md R82 and R83: sensor waveforms, the statements of
a test program, and the bench that runs them around the machine. It drives the machine and is no part
of the block (log 14).
-/

namespace Sys2Proof.Machine

/-! ## Waveforms -/

/-- `H(n)` or `L(n)`: `n` intervals at one level (30_encoding.md R82). -/
structure Seg where
  level : Level
  n : Nat
deriving DecidableEq, Repr

/-- A waveform: its segments, and the level it holds for the rest of the read (`H(*)` follows a last
segment that is not `*`, 30_encoding.md R82). -/
structure Wave where
  segs : List Seg
  rest : Level := true
deriving DecidableEq, Repr

/-- `H(n)`. -/
def segH (n : Nat) : Seg := { level := true, n := n }

/-- `L(n)`. -/
def segL (n : Nat) : Seg := { level := false, n := n }

/-- The level of the coming interval, and what of the segments is left after it. -/
def playSegs : List Seg → Level → Level × List Seg
  | [], rest => (rest, [])
  | ⟨_, 0⟩ :: more, rest => playSegs more rest
  | ⟨l, n + 1⟩ :: more, _ => (l, ⟨l, n⟩ :: more)

/-- `RESP` (30_encoding.md R83). -/
def segsResp : List Seg := [segH 20]

/-- `ACK` (30_encoding.md R83). -/
def segsAck : List Seg := [segL 80, segH 80]

/-- `BIT0` and `BIT1` (30_encoding.md R83). -/
def segsBit (b : Bool) : List Seg := [segL 50, segH (if b then 70 else 27)]

/-- `BYTE xx`, most significant bit first (30_encoding.md R83). -/
def segsByte (x : FrameByte) : List Seg :=
  [7, 6, 5, 4, 3, 2, 1, 0].flatMap fun i => segsBit (x.getLsbD i)

/-- `FRAME b0 b1 b2 b3 b4` (30_encoding.md R83). -/
def segsFrame (b0 b1 b2 b3 b4 : FrameByte) : List Seg := [b0, b1, b2, b3, b4].flatMap segsByte

/-- The segment `TAIL` begins with; `H(*)` follows (30_encoding.md R83). -/
def segsTail : List Seg := [segL 50]

/-- `DHT b0 b1 b2 b3 b4` (30_encoding.md R83). -/
def waveDht (b0 b1 b2 b3 b4 : FrameByte) : Wave :=
  { segs := segsResp ++ segsAck ++ segsFrame b0 b1 b2 b3 b4 ++ segsTail }

/-- `NOSENSOR` (30_encoding.md R83). -/
def waveNoSensor : Wave := { segs := [] }

/-! ## Statements -/

/-- One `name=value` of an `EXPECT` (30_encoding.md R82). -/
inductive Check where
  | st (v : St)
  | tcnt (v : TickCount)
  | bitcnt (v : BitCount)
  | sr (v : Frame)
  | busy (v : Bool)
  | done (v : Bool)
  | ok (v : Bool)
  | err (v : ErrCode)
  | hum (v : Result)
  | temp (v : Result)
  | lineOe (v : Bool)
  | lineO (v : Level)
deriving DecidableEq, Repr

/-- Whether the registers and outputs show the expected value. -/
def Check.holds (b : Block) : Check → Bool
  | .st v => b.st == v
  | .tcnt v => b.tcnt == v
  | .bitcnt v => b.bitcnt == v
  | .sr v => b.sr == v
  | .busy v => Sys2Proof.Machine.busy b == v
  | .done v => b.done == v
  | .ok v => okFlag b == v
  | .err v => b.err == v
  | .hum v => b.hum == v
  | .temp v => b.temp == v
  | .lineOe v => Sys2Proof.Machine.lineOe b.st == v
  | .lineO v => Sys2Proof.Machine.lineO b.st == v

/-- The statements of a test program (30_encoding.md R82). -/
inductive Stmt where
  | reset
  | start
  | ticks (n : Nat)
  | run
  | holdStart
  | sensor (w : Wave)
  | expect (c : List Check)
deriving DecidableEq, Repr

/-! ## The bench -/

/-- A machine with its sensor and its host: the waveform set for the next read, what is left of this
read's, whether `start` is held, and whether every expectation so far held. -/
structure Bench where
  machine : State
  wave : Wave
  playing : Wave
  held : Bool
  passed : Bool
deriving DecidableEq, Repr

/-- The bench at power-up, for a build (95_test_vectors.md section 3). A read for which no SENSOR
statement was given sees NOSENSOR, the line held high: the model's choice, since 30_encoding.md R82 does
not say (DESIGN CHOICE, log 18). -/
def Bench.powerUp (p : Params) : Bench where
  machine := { State.powerUp with build := p }
  wave := waveNoSensor
  playing := waveNoSensor
  held := false
  passed := true

/-- One enabled edge: the line shows the block's own drive where it drives, else the waveform, of
which only then an interval is used up; an accepted START begins the waveform anew (log 14). No next
state, no next bench. -/
def Bench.clock (rst start : Bool) (b : Bench) : Option Bench :=
  let drives := lineOe b.machine.st
  let shown := playSegs b.playing.segs b.playing.rest
  let level := if drives then lineO b.machine.st else shown.1
  let accepted := b.machine.st = .idle ∧ start = true ∧ rst = false
  let playing :=
    if accepted then b.wave else if drives then b.playing else { b.playing with segs := shown.2 }
  match step { b.machine with sched := [{ rst := rst, tick := true, start := start, line := level }] } with
  | .next t => some { b with machine := t, playing := playing }
  | .fault _ => none
  | .refused _ => none

/-- `TICKS n` (30_encoding.md R82). -/
def Bench.clocks : Nat → Bench → Option Bench
  | 0, b => some b
  | n + 1, b => (b.clock false b.held).bind (Bench.clocks n)

/-- `RUN`: edges until the first after which `busy = 0` and `done = 1`, at most `n` of them. -/
def Bench.runUpTo : Nat → Bench → Option Bench
  | 0, b => some b
  | n + 1, b =>
    (b.clock false b.held).bind fun c =>
      if busy c.machine.toBlock = false ∧ c.machine.done = true then some c else Bench.runUpTo n c

/-- One statement (30_encoding.md R82); RUN is bounded by D_MAX (60_exceptions.md R163). RESET presents
`start = 0` also after HOLD_START: of the two rows of R82 that speak of that edge the model takes
RESET's (DESIGN CHOICE, log 19). -/
def Bench.exec (b : Bench) : Stmt → Option Bench
  | .reset => b.clock true false
  | .start => b.clock false true
  | .ticks n => b.clocks n
  | .run => b.runUpTo b.machine.build.dMax
  | .holdStart => some { b with held := true }
  | .sensor w => some { b with wave := w }
  | .expect c => some { b with passed := b.passed && c.all (Check.holds b.machine.toBlock) }

/-- A test program, statement by statement. -/
def Bench.program : List Stmt → Bench → Option Bench
  | [], b => some b
  | x :: more, b => (b.exec x).bind (Bench.program more)

end Sys2Proof.Machine
end

