-- ==== Sys2Proof/Tests/Slice0.lean ====
section
/-!
SUPPORT. Tests of single steps, their expected results taken from 95_test_vectors.md and from the
tables of 30_encoding.md; checks that the legal ranges refuse what lies outside them; and, for every
statement with hypotheses, states and operands that meet them together.
-/

namespace Sys2Proof.Tests

open Sys2Proof.Machine

/-! ## Small machines -/

/-- The inputs of an enabled edge. -/
def pin (rst start : Bool) (line : Level) : Pins :=
  { rst := rst, tick := true, start := start, line := line }

/-- Registers, by position: st, tcnt, bitcnt, sr, done, err, hum, temp. -/
def regs (st : St) (tcnt bitcnt sr : Nat) (done : Bool) (err hum temp : Nat) : Block where
  st := st
  tcnt := BitVec.ofNat 16 tcnt
  bitcnt := BitVec.ofNat 6 bitcnt
  sr := BitVec.ofNat 40 sr
  done := done
  err := BitVec.ofNat 2 err
  hum := BitVec.ofNat 16 hum
  temp := BitVec.ofNat 16 temp

/-- A busy block: no result yet. -/
def mid (st : St) (tcnt bitcnt sr : Nat) : Block := regs st tcnt bitcnt sr false 0 0 0

/-- A machine of a build with its next inputs. -/
def machine (p : Params) (b : Block) (sched : List Pins) : State :=
  { toBlock := b, build := p, sched := sched, edge := 0 }

theorem machine_build (p : Params) (b : Block) (sched : List Pins) : (machine p b sched).build = p := rfl

/-- The registers after one step at the decided parameters. -/
def after (b : Block) (x : Pins) : Option Block :=
  match step (machine Params.decided b [x]) with
  | .next t => some t.toBlock
  | .fault _ => none
  | .refused _ => none

/-- A legal build with short waits. -/
def short : Params :=
  { triggerLowMs := 18, hsTimeoutUs := 3, edgeTimeoutUs := 3, sampleDelayUs := 2, ackHighPhase := 1 }

/-! ## Legal builds (00_scope.md R9, R11) -/

theorem test_decided_legal : Params.decided.legal = true := by decide

theorem test_low_corner_legal :
    Params.legal { triggerLowMs := 18, hsTimeoutUs := 1, edgeTimeoutUs := 1, sampleDelayUs := 1,
                   ackHighPhase := 0 } = true := by decide

theorem test_high_corner_legal :
    Params.legal { triggerLowMs := 65, hsTimeoutUs := 65535, edgeTimeoutUs := 65535,
                   sampleDelayUs := 65535, ackHighPhase := 1 } = true := by decide

theorem test_trigger_17_refused :
    Params.legal { Params.decided with triggerLowMs := 17 } = false := by decide

theorem test_trigger_66_refused :
    Params.legal { Params.decided with triggerLowMs := 66 } = false := by decide

theorem test_hs_timeout_0_refused :
    Params.legal { Params.decided with hsTimeoutUs := 0 } = false := by decide

theorem test_hs_timeout_65536_refused :
    Params.legal { Params.decided with hsTimeoutUs := 65536 } = false := by decide

theorem test_edge_timeout_0_refused :
    Params.legal { Params.decided with edgeTimeoutUs := 0 } = false := by decide

theorem test_edge_timeout_65536_refused :
    Params.legal { Params.decided with edgeTimeoutUs := 65536 } = false := by decide

theorem test_sample_delay_0_refused :
    Params.legal { Params.decided with sampleDelayUs := 0 } = false := by decide

theorem test_sample_delay_65536_refused :
    Params.legal { Params.decided with sampleDelayUs := 65536 } = false := by decide

theorem test_ack_high_phase_2_refused :
    Params.legal { Params.decided with ackHighPhase := 2 } = false := by decide

/-! ## Decoding: words written out from 30_encoding.md R70 and R77 -/

theorem test_decode_trig : decode (.st 0b0001#4) = .ok .trig := by decide

theorem test_decode_hs_rise : decode (.st 0b0100#4) = .ok .hsRise := by decide

theorem test_decode_bit_fall : decode (.st 0b1000#4) = .ok .bitFall := by decide

theorem test_decode_check : decode (.st 0b1001#4) = .ok .check := by decide

theorem test_decode_ill_f : decode (.st 0b1111#4) = .ok .illF := by decide

theorem test_decode_start : decode (.hostin 0b01#2) = .ok .start := by decide

theorem test_decode_reset_any_start :
    decode (.hostin 0b10#2) = .ok .reset ∧ decode (.hostin 0b11#2) = .ok .reset := by decide

theorem test_decode_hostin_00_names_none :
    decode (.hostin 0b00#2) = .error .noHostOperation := by decide

/-- The state register's codes and their decoding agree, both ways. -/
theorem test_st_codes : ∀ w : StWord, stBits (stOfBits w) = w := by decide

theorem test_table_words :
    decodeTableWord 8 0x7 = some .bitDly ∧ decodeTableWord 8 0xA = some .illA
      ∧ decodeTableWord 2 0x1 = some .start ∧ decodeTableWord 2 0x2 = some .reset
      ∧ decodeTableWord 2 0x0 = none ∧ decodeTableWord 8 0x10 = none := by decide

/-- The word placed in the reset state is the operation its next step selects. -/
theorem test_placed_word_is_selected :
    (State.reset.withFetchWord 8 0x7).selected = some .bitDly
      ∧ (State.reset.withFetchWord 2 0x1).selected = some .start
      ∧ (State.reset.withFetchWord 2 0x2).selected = some .reset := by decide

/-! ## Host operations (95_test_vectors.md 2.1, 2.5) -/

theorem test_start_V2 :
    after (regs .idle 0 0 0 true 0 0x018C 0x00FA) (pin false true false)
      = some (regs .trig 0 0 0 false 0 0 0) := by decide

theorem test_start_busy_V4 :
    after (mid .bitDly 10 5 0x15) (pin false true true) = some (mid .bitDly 11 5 0x15) := by decide

theorem test_reset_V70 :
    after (mid .bitDly 12 17 0x1ABCD) (pin true false true) = some (mid .idle 0 0 0) := by decide

theorem test_reset_beats_completion_V72 :
    after (mid .check 0 40 0x018C00FA87) (pin true false false) = some (mid .idle 0 0 0) := by decide

/-! ## Handshake (95_test_vectors.md 2.1, 2.2) -/

theorem test_idle_holds_V3 :
    after (regs .idle 0 0 0 true 0 0x018C 0x00FA) (pin false false false)
      = some (regs .idle 0 0 0 true 0 0x018C 0x00FA) := by decide

theorem test_idle_start_V1 :
    after (regs .idle 0 0 0 true 3 0 0) (pin false true true) = some (mid .trig 0 0 0) := by decide

theorem test_trig_counts_V10 :
    after (mid .trig 0 0 0) (pin false false false) = some (mid .trig 1 0 0) := by decide

theorem test_trig_ends_V11 :
    after (mid .trig 17999 0 0) (pin false false true) = some (mid .rel 0 0 0) := by decide

theorem test_rel_V12 :
    after (mid .rel 0 0 0) (pin false false false) = some (mid .hsAck 0 0 0) := by decide

theorem test_hs_ack_no_response_V15 :
    after (mid .hsAck 199 0 0) (pin false false true) = some (regs .idle 0 0 0 true 1 0 0) := by decide

theorem test_hs_ack_last_sample_V16 :
    after (mid .hsAck 199 0 0) (pin false false false) = some (mid .hsRise 0 0 0) := by decide

theorem test_hs_rise_V18 :
    after (mid .hsRise 79 0 0) (pin false false true) = some (mid .hsFall 0 0 0) := by decide

theorem test_hs_rise_timeout_V19 :
    after (mid .hsRise 199 0 0) (pin false false false) = some (regs .idle 0 0 0 true 2 0 0) := by decide

theorem test_hs_fall_V20 :
    after (mid .hsFall 79 0 0) (pin false false false) = some (mid .bitRise 0 0 0) := by decide

theorem test_hs_fall_timeout_V21 :
    after (mid .hsFall 199 0 0) (pin false false true) = some (regs .idle 0 0 0 true 2 0 0) := by decide

/-- V17: without a high phase the acknowledgment leads to BIT_RISE. -/
theorem test_after_ack_V17 : afterAck { Params.decided with ackHighPhase := 0 } = .bitRise := by decide

/-! ## Bit sampler (95_test_vectors.md 2.3) -/

theorem test_bit_rise_V30 :
    after (mid .bitRise 49 0 0) (pin false false true) = some (mid .bitDly 0 0 0) := by decide

theorem test_bit_rise_timeout_V31 :
    after (mid .bitRise 199 17 0x1ABCD) (pin false false false)
      = some (regs .idle 0 0 0 true 2 0 0) := by decide

theorem test_bit_dly_one_V33 :
    after (mid .bitDly 29 7 0xC) (pin false false true) = some (mid .bitFall 0 8 0x19) := by decide

theorem test_bit_dly_last_zero_V36 :
    after (mid .bitDly 29 39 0) (pin false false false) = some (mid .check 0 40 0) := by decide

theorem test_bit_fall_last_V39 :
    after (mid .bitFall 39 40 0x018C00FA87) (pin false false false)
      = some (mid .check 0 40 0x018C00FA87) := by decide

theorem test_bit_fall_timeout_V40 :
    after (mid .bitFall 199 40 0x018C00FA87) (pin false false true)
      = some (regs .idle 0 0 0 true 2 0 0) := by decide

/-! ## CHECK and the unused codes (95_test_vectors.md 2.4, 2.5) -/

theorem test_check_negative_V52 :
    after (mid .check 0 40 0x028F806576) (pin false false false)
      = some (regs .idle 0 0 0 true 0 0x028F 0xFF9B) := by decide

theorem test_check_mismatch_V55 :
    after (mid .check 0 40 0xFFFFFFFFFF) (pin false false false)
      = some (regs .idle 0 0 0 true 3 0 0) := by decide

theorem test_ill_V74 :
    after (regs .illC 7 3 7 true 2 0 0) (pin false true false)
      = some (regs .idle 0 0 0 true 2 0 0) := by decide

/-! ## Pure functions (95_test_vectors.md 2.6) -/

theorem test_sums :
    frameSum 0x018C00FA87#40 = 0x187#10 ∧ frameChecksum 0x018C00FA87#40 = 0x87#8
      ∧ frameSum 0xFFFFFFFF00#40 = 0x3FC#10 ∧ frameChecksum 0xFFFFFFFF00#40 = 0xFC#8
      ∧ frameSum 0x8080000000#40 = 0x100#10 ∧ frameChecksum 0x8080000000#40 = 0x00#8 := by decide

theorem test_temperatures :
    decodeTemperatureField 0x0000#16 = 0x0000#16 ∧ decodeTemperatureField 0x8000#16 = 0x0000#16
      ∧ decodeTemperatureField 0x8001#16 = 0xFFFF#16 ∧ decodeTemperatureField 0x7FFF#16 = 0x7FFF#16
      ∧ decodeTemperatureField 0xFFFF#16 = 0x8001#16 ∧ decodeTemperatureField 0x8019#16 = 0xFFE7#16 := by
  decide

/-- W6: the reading of the round trip is 25.0 and 39.6, in tenths (40_host_interface.md R102). -/
theorem test_outcome_W6 :
    readOutcome (regs .idle 0 0 0 true 0 0x018C 0x00FA) = some (.reading 250 396) := by decide

/-- Program P1's waveform is 3912 intervals before its last level. -/
theorem test_waveform_P1_length :
    ((waveDht 0x01#8 0x8C#8 0x00#8 0xFA#8 0x87#8).segs.map Seg.n).sum = 3912 := by decide

/-- The lengths of 95_test_vectors.md 2.8: D_MAX, D_MAX without a high phase, a read without a sensor,
and the shortest successful read. -/
theorem test_read_lengths :
    Params.decided.dMax = 35803 ∧ { Params.decided with ackHighPhase := 0 }.dMax = 35403
      ∧ Params.decided.noResponseEdges = 18202 ∧ Params.decided.shortestRead = 19246 := by decide

/-! ## Witnesses: hypotheses on one edge -/

/-- A block in IDLE after the round trip. -/
def idleDone : Block := regs .idle 0 0 0 true 0 0x018C 0x00FA

/-- The hypotheses of StepRunsTheSelectedOperation: an enabled edge, and one that is not. -/
theorem witness_step_runs_enabled :
    (machine Params.decided idleDone [pin false true true]).pins.tick = true
      ∧ ∃ t, exec (opAt (hostinWord false true) .idle)
          (machine Params.decided idleDone [pin false true true]) = .next t :=
  ⟨by decide, _, rfl⟩

theorem witness_step_holds :
    (machine Params.decided (mid .trig 5 0 0) [⟨false, false, true, true⟩]).build.legal = true
      ∧ (machine Params.decided (mid .trig 5 0 0) [⟨false, false, true, true⟩]).pins.rst = false
      ∧ (machine Params.decided (mid .trig 5 0 0) [⟨false, false, true, true⟩]).pins.tick = false := by
  decide

/-- HostInputWordSelectsTheOperation: a state other than IDLE. -/
theorem witness_not_idle : St.trig ≠ .idle := by decide

/-- IllegalBuildIsRefused: a machine of an illegal build. -/
theorem witness_illegal :
    (machine { Params.decided with hsTimeoutUs := 0 } idleDone []).build.legal = false := by decide

/-- EveryOperationCompletes, and every statement about a legal build alone. -/
theorem witness_legal : (machine short (mid .bitFall 2 40 1) [pin false true true]).build.legal = true := by
  decide

/-- ResetReturnsEveryRegister, OneResetEdgeEstablishesTheInvariant and the first clause of
SimultaneousEventsHaveAPriority: a reset edge of a block mid-read. -/
theorem witness_reset_edge :
    (machine Params.decided (mid .check 0 40 1) [pin true true true]).build.legal = true
      ∧ (machine Params.decided (mid .check 0 40 1) [pin true true true]).pins.rst = true := by decide

/-- EveryStepKeepsTheInvariant and NoResultWhileBusyOrFailed: a busy state of the invariant, at the
greatest tick and bit count its state can hold, and its step. -/
theorem witness_invariant_busy : Inv (machine Params.decided (mid .bitFall 199 40 0xFFFFFFFFFF) [pin false true true]) where
  built := by decide
  used := by decide
  phase := by decide
  ticks := by decide
  bits := by decide
  frame := by decide
  fall := by decide
  pending := by decide
  clear := by decide
  failed := by decide
  range := by decide

theorem witness_invariant_step :
    ∃ t, step (machine Params.decided (mid .bitFall 199 40 0xFFFFFFFFFF) [pin false true true]) = .next t ∧
      busy (mid .bitFall 199 40 0xFFFFFFFFFF) = true := ⟨_, rfl, by decide⟩

/-- NoResultWhileBusyOrFailed: a state of the invariant that reports a failure. -/
theorem witness_invariant_failed : Inv (machine Params.decided (regs .idle 0 0 0 true 1 0 0) []) where
  built := by decide
  used := by decide
  phase := by decide
  ticks := by decide
  bits := by decide
  frame := by decide
  fall := by decide
  pending := by decide
  clear := by decide
  failed := by decide
  range := by decide

/-- HsFallWaitsForTheFirstDataBit, CheckValidatesAndDecodes and ErrorEntryReportsAndRestoresTheLine:
states of the invariant in HS_FALL and in CHECK. -/
theorem witness_invariant_hs_fall :
    Inv (machine Params.decided (mid .hsFall 199 0 0) [pin false false true]) where
  built := by decide
  used := by decide
  phase := by decide
  ticks := by decide
  bits := by decide
  frame := by decide
  fall := by decide
  pending := by decide
  clear := by decide
  failed := by decide
  range := by decide

theorem witness_invariant_check :
    Inv (machine Params.decided (mid .check 0 40 0x0000000001) [pin false false true]) where
  built := by decide
  used := by decide
  phase := by decide
  ticks := by decide
  bits := by decide
  frame := by decide
  fall := by decide
  pending := by decide
  clear := by decide
  failed := by decide
  range := by decide

theorem witness_failed :
    (regs .idle 0 0 0 true 1 0 0).done = true ∧ okFlag (regs .idle 0 0 0 true 1 0 0) = false := by decide

/-- StartBeginsARead, ReadDoesNotDependOnEarlierResults and the first clause of IdleWaitsForStart: an
edge that accepts a START. -/
theorem witness_accepts : Accepts (machine Params.decided idleDone [pin false true true]) := by
  unfold Accepts
  decide

theorem witness_other_idle_block : (regs .idle 0 0 0 true 3 0 0).st = .idle := by decide

/-- The second clause of IdleWaitsForStart. -/
theorem witness_idle_quiet :
    (machine Params.decided idleDone [pin false false true]).pins.start = false
      ∧ (machine Params.decided idleDone [pin false false true]).st = .idle := by decide

/-- StartWhileBusyIsIgnored and StartWhileBusyChangesNoRegister: an enabled edge of a busy block. -/
theorem witness_busy_edge :
    (machine Params.decided (mid .bitDly 10 5 0x15) [pin false true true]).st ≠ .idle
      ∧ (machine Params.decided (mid .bitDly 10 5 0x15) [pin false true true]).pins.rst = false
      ∧ (machine Params.decided (mid .bitDly 10 5 0x15) [pin false true true]).pins.tick = true := by
  decide

/-- The output clauses of the state statements: a block in each listening and driving state. -/
theorem witness_states :
    (mid .rel 0 0 0).st = .rel ∧ (mid .hsAck 199 0 0).st = .hsAck ∧ (mid .hsRise 199 0 0).st = .hsRise
      ∧ (mid .hsFall 199 0 0).st = .hsFall ∧ (mid .bitRise 199 39 0).st = .bitRise
      ∧ (mid .bitDly 29 39 0).st = .bitDly ∧ (mid .bitFall 199 40 1).st = .bitFall
      ∧ (mid .check 0 40 0).st = .check := by decide

/-- A build without a high phase steps from HS_ACK without entering HS_RISE or HS_FALL
(HsRiseWaitsForTheHighPhase, HsFallWaitsForTheFirstDataBit). -/
theorem witness_no_high_phase :
    ∃ t, step (machine { Params.decided with ackHighPhase := 0 } (mid .hsAck 20 0 0)
        [pin false false false]) = .next t ∧ t.st = .bitRise := ⟨_, rfl, by decide⟩

/-- BitRiseWaitsForTheStartOfABit: BIT_RISE is entered. -/
theorem witness_enters_bit_rise :
    ∃ t, step (machine Params.decided (mid .hsFall 79 0 0) [pin false false false]) = .next t
      ∧ t.st = .bitRise := ⟨_, rfl, by decide⟩

/-- BitFallWaitsForTheEndOfAOne: BIT_FALL is entered. -/
theorem witness_enters_bit_fall :
    ∃ t, step (machine Params.decided (mid .bitDly 29 7 0xC) [pin false false true]) = .next t
      ∧ t.st = .bitFall := ⟨_, rfl, by decide⟩

/-- CheckSeesAFullFrame: CHECK is entered. -/
theorem witness_enters_check :
    ∃ t, step (machine Params.decided (mid .bitFall 0 40 1) [pin false false false]) = .next t
      ∧ t.st = .check := ⟨_, rfl, by decide⟩

/-- UnusedCodesRecoverToIdle: the least and the greatest unused code at an enabled edge. -/
theorem witness_unused :
    0xA ≤ (stBits (regs .illA 7 3 7 true 2 0 0).st).toNat
      ∧ 0xA ≤ (stBits (regs .illF 7 3 7 true 2 0 0).st).toNat
      ∧ (machine Params.decided (regs .illA 7 3 7 true 2 0 0) [pin false true false]).pins.tick = true
      ∧ (machine Params.decided (regs .illA 7 3 7 true 2 0 0) [pin false true false]).pins.rst = false := by
  decide

/-- ErrorEntryReportsAndRestoresTheLine: the last sample of a wait, and a CHECK that does not match. -/
theorem witness_wait_exhausted :
    ∃ w, waitOf Params.decided 17#6 .bitRise = some w ∧ false ≠ w.level ∧ 199 + 1 = w.limit :=
  ⟨_, rfl, by decide, by decide⟩

theorem witness_hs_ack_exhausted :
    ∃ w, waitOf Params.decided 0#6 .hsAck = some w ∧ true ≠ w.level ∧ 199 + 1 = w.limit :=
  ⟨_, rfl, by decide, by decide⟩

theorem witness_checksum_fails :
    (mid .check 0 40 0x0000000001).st = .check ∧ checksumOK (mid .check 0 40 0x0000000001).sr = false := by
  decide

/-- HumidityIsTheFirstTwoBytes: a frame that passes. -/
theorem witness_checksum_passes : checksumOK (mid .check 0 40 0xFFFFFFFFFC).sr = true := by decide

/-- OnlyTheNamedStatesRaiseErrors: a step that writes each code. -/
theorem witness_no_response_raised :
    ∃ t, step (machine Params.decided (mid .hsAck 199 0 0) [pin false false true]) = .next t
      ∧ t.err = 0b01#2 := ⟨_, rfl, by decide⟩

theorem witness_timeout_raised :
    ∃ t, step (machine Params.decided (mid .bitFall 199 40 1) [pin false false true]) = .next t
      ∧ t.err = 0b10#2 := ⟨_, rfl, by decide⟩

theorem witness_checksum_failed_raised :
    ∃ t, step (machine Params.decided (mid .check 0 40 1) [pin false false true]) = .next t
      ∧ t.err = 0b11#2 := ⟨_, rfl, by decide⟩

/-- The second and third clauses of SimultaneousEventsHaveAPriority. -/
theorem witness_edge_beats_timeout :
    ∃ w, waitOf Params.decided 0#6 .hsAck = some w ∧ false = w.level ∧ 199 + 1 = w.limit :=
  ⟨_, rfl, by decide, by decide⟩

theorem witness_start_at_completion :
    (machine Params.decided (mid .check 0 40 0) [pin false true true]).st = .check
      ∧ (machine Params.decided (mid .check 0 40 0) [pin false true true]).pins.start = true := by decide

/-- OutcomeIsReadFromTheResultRegisters: a busy block, and a block that shows each outcome. -/
theorem witness_outcomes :
    busy (mid .trig 0 0 0) = true
      ∧ (busy idleDone = false ∧ idleDone.done = true ∧ idleDone.err = 0b00#2)
      ∧ (busy (regs .idle 0 0 0 true 1 0 0) = false ∧ (regs .idle 0 0 0 true 1 0 0).err = 0b01#2)
      ∧ (busy (regs .idle 0 0 0 true 2 0 0) = false ∧ (regs .idle 0 0 0 true 2 0 0).err = 0b10#2)
      ∧ (busy (regs .idle 0 0 0 true 3 0 0) = false ∧ (regs .idle 0 0 0 true 3 0 0).err = 0b11#2) := by
  decide

/-- UnfinishedOperationsKeepFrameAndResults: a wait that goes on. -/
theorem witness_unfinished :
    ∃ t, exec .bitFall (machine Params.decided (mid .bitFall 198 3 1) [pin false false true]) = .next t
      ∧ t.st ≠ .idle := ⟨_, rfl, by decide⟩

/-- ResultRegistersChangeTogether, OnlyASuccessfulCheckWritesAReading and OnlyTheSampleShiftsTheFrame:
steps that change what they speak of, by an accepted START, a completion and a sample. -/
theorem witness_results_cleared :
    ∃ t, step (machine Params.decided idleDone [pin false true true]) = .next t
      ∧ t.hum ≠ idleDone.hum := ⟨_, rfl, by decide⟩

theorem witness_results_written :
    ∃ t, step (machine Params.decided (mid .check 0 40 0x018C00FA87) [pin false false false]) = .next t
      ∧ t.hum ≠ 0#16 ∧ t.done ≠ false ∧ t.sr ≠ 0x018C00FA87#40 := ⟨_, rfl, by decide⟩

theorem witness_frame_shifts :
    ∃ t, step (machine Params.decided (mid .bitDly 29 7 0xC) [pin false false true]) = .next t
      ∧ t.sr ≠ 0xC#40 := ⟨_, rfl, by decide⟩

/-- OnlyAStartLeavesIdle and StatesFollowTheOrderOfARead: IDLE is left, and entered. -/
theorem witness_leaves_idle :
    ∃ t, step (machine Params.decided idleDone [pin false true true]) = .next t ∧ t.st ≠ .idle :=
  ⟨_, rfl, by decide⟩

theorem witness_enters_idle :
    ∃ t, step (machine Params.decided (mid .check 0 40 0) [pin false true true]) = .next t
      ∧ t.st = .idle := ⟨_, rfl, by decide⟩

/-- LineIsNotReadWhileDriven: the line is driven. -/
theorem witness_driven : lineOe (mid .trig 0 0 0).st = true := by decide

/-- BlockSharesNoState: two machines with the same block, build and coming inputs whose edges and later
inputs differ. -/
theorem witness_same_edge :
    { machine Params.decided idleDone [pin false true true, pin true false false] with edge := 7 }.pins
        = (machine Params.decided idleDone [pin false true true]).pins
      ∧ { machine Params.decided idleDone [pin false true true, pin true false false] with edge := 7 }
        ≠ machine Params.decided idleDone [pin false true true] := by decide

/-! ## Duties of the host and of the integrator -/

/-- Two blocks on two lines, and two on one (60_exceptions.md R171). -/
theorem test_lines_exclusive :
    LinesExclusive [(0, machine short idleDone []), (1, machine short idleDone [])]
      ∧ ¬ LinesExclusive [(0, machine short idleDone []), (0, machine short idleDone [])] := by
  unfold LinesExclusive
  decide

/-- The read a START at edge 0 begins is in progress before edge 1, and a reset there ends it
(70_reset_and_hazards.md R191). -/
theorem test_reset_ends_read :
    ReadEnds (machine Params.decided idleDone [pin false true true, pin true false true]) 0 1 := by
  refine ⟨⟨⟨_, rfl, rfl, rfl, rfl, rfl⟩, by decide, fun i h1 h2 => ?_⟩, _, rfl, rfl⟩
  obtain rfl : i = 1 := by omega
  exact ⟨_, rfl, rfl⟩

/-- A START at the edge after a completion leaves one microsecond between them, at one `clk` cycle a
microsecond (95_test_vectors.md program P6, one IDLE interval). -/
theorem test_back_to_back_interval (powered n j : Nat) (low : Nat → Bool) (s t : State)
    (h : HostDuties 1 powered low s) (he : ReadEnds s n j) (hm : edges (j + 1) s = .next t)
    (ha : Accepts t) : Config.minReadIntervalUs ≤ 1 := by
  have := h.interval n j (j + 1) t he (by omega) hm ha
  omega

/-! ## Witnesses: hypotheses on several edges -/

/-- Inputs that are all enabled edges without reset leave a run undisturbed. -/
theorem undisturbed_of_sched (p : Params) (b : Block) (l : List Pins) (n : Nat) (hn : n ≤ l.length)
    (h : ∀ x ∈ l, x.rst = false ∧ x.tick = true) : Undisturbed (machine p b l) n := by
  intro j hj
  have hlt : j < l.length := by omega
  have : (machine p b l).pinsAt j = l[j] := by
    simp [State.pinsAt, machine, List.getD_eq_getElem?_getD, hlt]
  rw [this]
  exact h _ (List.getElem_mem hlt)

/-- The inputs of a read that spends `n` edges before HS_ACK, its START edge apart, and whose line shows
`levels` from there on. -/
def readInputs (n : Nat) (levels : List Level) : List Pins :=
  pin false true true :: (List.replicate n (pin false false false) ++ levels.map (pin false true))

theorem readInputs_enabled (n : Nat) (levels : List Level) :
    ∀ x ∈ readInputs n levels, x.rst = false ∧ x.tick = true := by
  intro x hx
  simp only [readInputs, List.mem_cons, List.mem_append, List.mem_replicate, List.mem_map] at hx
  rcases hx with rfl | ⟨_, rfl⟩ | ⟨l, _, rfl⟩ <;> exact ⟨rfl, rfl⟩

theorem readInputs_length (n : Nat) (levels : List Level) :
    (readInputs n levels).length = 1 + n + levels.length := by
  simp only [readInputs, List.length_cons, List.length_append, List.length_replicate, List.length_map]
  omega

theorem readInputs_line (p : Params) (b : Block) (n : Nat) (levels : List Level) (j : Nat)
    (hj : j < levels.length) :
    ((machine p b (readInputs n levels)).pinsAt (1 + n + j)).line = levels.getD j true := by
  have h : (readInputs n levels).getD (1 + n + j) (freePins (0 + (1 + n + j)))
      = pin false true (levels.getD j true) := by
    rw [show 1 + n + j = (n + j) + 1 by omega]
    simp only [readInputs, List.getD_cons_succ]
    rw [List.getD_append_right _ _ _ _ (by simp)]
    simp [hj]
  simp only [State.pinsAt, machine, h]
  rfl

/-- TrigHoldsTheLineLow: a whole trigger. -/
theorem witness_trigger :
    Undisturbed (machine Params.decided (mid .trig 0 0 0)
      (List.replicate 18000 (pin false true true))) (Params.decided.triggerLowMs * 1000) :=
  undisturbed_of_sched _ _ _ _ (by rw [List.length_replicate]; decide)
    (fun x hx => by rw [List.eq_of_mem_replicate hx]; exact ⟨rfl, rfl⟩)

/-- WaitMakesAtMostLimitSamples, first clause: the level comes at the last allowed sample. -/
theorem witness_wait_seen :
    (∃ w, waitOf short 0#6 .hsAck = some w ∧ w.limit = 3 ∧ w.level = false)
      ∧ Undisturbed (machine short (mid .hsAck 0 0 0)
          [pin false true true, pin false true true, pin false true false]) 3
      ∧ ∀ j < 3, ((machine short (mid .hsAck 0 0 0)
          [pin false true true, pin false true true, pin false true false]).pinsAt j).line
            = decide (j ≠ 2) := by
  refine ⟨⟨_, rfl, rfl, rfl⟩, ?_, by decide⟩
  unfold Undisturbed
  decide

/-- WaitMakesAtMostLimitSamples, second clause: the level does not come. -/
theorem witness_wait_fails :
    (∃ w, waitOf short 3#6 .bitRise = some w ∧ w.limit = 3 ∧ w.level = true)
      ∧ Undisturbed (machine short (mid .bitRise 0 3 1) (List.replicate 3 (pin false false false))) 3
      ∧ ∀ j < 3, ((machine short (mid .bitRise 0 3 1)
          (List.replicate 3 (pin false false false))).pinsAt j).line = false := by
  refine ⟨⟨_, rfl, rfl, rfl⟩, ?_, by decide⟩
  unfold Undisturbed
  decide

/-- BitDlySamplesAndShifts, third clause: a whole delay. -/
theorem witness_delay :
    Undisturbed (machine short (mid .bitDly 0 3 1) [pin false true true, pin false true false])
      short.sampleDelayUs := by
  unfold Undisturbed
  decide

/-- BitIsTheLevelAfterTheSampleDelay: a rise, a glitch inside the delay, and the sample. -/
theorem witness_classification :
    Undisturbed (machine short (mid .bitRise 2 39 1)
        [pin false true true, pin false true false, pin false true true]) (short.sampleDelayUs + 1)
      ∧ ((machine short (mid .bitRise 2 39 1)
        [pin false true true, pin false true false, pin false true true]).pinsAt 0).line = true := by
  refine ⟨?_, by decide⟩
  unfold Undisturbed
  decide

/-- A 0 whose high is as long as the delay of a build with short waits, after as long a low as the
wait for its rise allows. -/
def longZero : Pulse := { low := 3, high := 2 }

/-- A 1 whose high is as long as the wait for its fall allows. -/
def longOne : Pulse := { low := 3, high := 5 }

/-- A 0 and a 1 in turn, forty pulses. -/
def edgePulses : List Pulse := (List.replicate 20 [longZero, longOne]).flatten

theorem pairs_fit (n : Nat) : PulsesFit short 1 (List.replicate n [longZero, longOne]).flatten 1 := by
  induction n with
  | zero => exact Nat.le_refl 1
  | succ n ih =>
    rw [List.replicate_succ, List.flatten_cons]
    exact ⟨by decide, by decide, by decide, by decide, by decide, by decide, by decide, by decide, ih⟩

/-- An answer of these pulses, with each part of the handshake as long as its wait allows. -/
def edgeAnswer : Answer :=
  { response := 2, ackLow := 3, ackHigh := 3, pulses := edgePulses, tail := 1 }

theorem edgeAnswer_fits : edgeAnswer.Fits short :=
  ⟨by decide, by decide, fun _ => by decide, pairs_fit 20⟩

/-- The same pulses, the first low one shorter: none of it is used before the wait for the rise. -/
def framePulses : List Pulse := { low := 2, high := 2 } :: edgePulses.tail

theorem framePulses_fit : PulsesFit short 0 framePulses 1 :=
  ⟨by decide, by decide, by decide, by decide, by decide, by decide, by decide, by decide, pairs_fit 19⟩

/-- The inputs whose line shows `levels` from the coming edge on. -/
theorem levels_on_the_line (p : Params) (b : Block) (levels : List Level) :
    Undisturbed (machine p b (levels.map (pin false true))) levels.length
      ∧ ∀ j < levels.length,
        ((machine p b (levels.map (pin false true))).pinsAt j).line = levels.getD j true := by
  refine ⟨undisturbed_of_sched _ _ _ _ (by simp) (fun x hx => ?_), fun j hj => ?_⟩
  · obtain ⟨l, _, rfl⟩ := List.mem_map.1 hx
    exact ⟨rfl, rfl⟩
  · simp [State.pinsAt, machine, hj, pin]

/-- FrameOnTheLineIsTheFrameCaptured: all its hypotheses together. -/
theorem witness_frame_on_the_line :
    ∃ (s : State) (qs : List Pulse) (tail : Nat),
      s.build.legal = true ∧ s.st = .bitRise ∧ s.tcnt = 0#16 ∧ s.bitcnt = 0#6 ∧ s.sr = 0#40
        ∧ qs.length = 40 ∧ PulsesFit s.build 0 qs tail
        ∧ Undisturbed s (pulseLevels qs ++ List.replicate tail false).length
        ∧ ∀ j < (pulseLevels qs ++ List.replicate tail false).length,
          (s.pinsAt j).line = (pulseLevels qs ++ List.replicate tail false).getD j true := by
  refine ⟨machine short (mid .bitRise 0 0 0)
      ((pulseLevels framePulses ++ List.replicate 1 false).map (pin false true)), framePulses, 1,
    by decide, rfl, rfl, rfl, rfl, by decide, framePulses_fit, ?_, ?_⟩
  · exact (levels_on_the_line _ _ _).1
  · exact (levels_on_the_line _ _ _).2

/-- StoppedTickFreezesTheBlock: edges without a tick. -/
theorem witness_stopped :
    ∀ j < 3, ((machine Params.decided (mid .bitDly 10 5 0x15)
        (List.replicate 3 ⟨false, false, true, true⟩)).pinsAt j).rst = false
      ∧ ((machine Params.decided (mid .bitDly 10 5 0x15)
        (List.replicate 3 ⟨false, false, true, true⟩)).pinsAt j).tick = false := by decide

/-- ResultsHoldUntilStartOrReset: a START no enabled edge samples, and an enabled edge without one. -/
theorem witness_quiet :
    Quiet (machine Params.decided idleDone [⟨false, false, true, true⟩, pin false false false]) 2 := by
  unfold Quiet
  decide

/-- ShortestSuccessfulRead: a read after one edge, fewer than the shortest. -/
theorem witness_short_run :
    ∃ t, edges 1 (machine Params.decided idleDone [pin false true true]) = .next t ∧ t.st = .trig :=
  ⟨_, rfl, rfl⟩

/-- EveryReadEndsWithinDMax: a read undisturbed for D_MAX edges. -/
theorem witness_long_read :
    Accepts (machine Params.decided idleDone (List.replicate 35803 (pin false true true)))
      ∧ Undisturbed (machine Params.decided idleDone (List.replicate 35803 (pin false true true)))
        Params.decided.dMax := by
  constructor
  · rw [List.replicate_succ]
    exact ⟨rfl, rfl, rfl, rfl⟩
  · exact undisturbed_of_sched _ _ _ _ (by rw [List.length_replicate]; decide)
      (fun x hx => by rw [List.eq_of_mem_replicate hx]; exact ⟨rfl, rfl⟩)

/-- SilentSensorEndsInNoResponse: all its hypotheses together. -/
theorem witness_silent_sensor :
    ∃ s : State, s.build = Params.decided ∧ Accepts s ∧ Undisturbed s Params.decided.noResponseEdges
      ∧ ∀ j < 200, (s.pinsAt (2 + 18 * 1000 + j)).line = true := by
  refine ⟨machine Params.decided idleDone (readInputs 18001 (List.replicate 200 true)), rfl,
    ⟨rfl, rfl, rfl, rfl⟩, ?_, fun j hj => ?_⟩
  · exact undisturbed_of_sched _ _ _ _
      (by rw [readInputs_length, List.length_replicate]; decide) (readInputs_enabled _ _)
  · have := readInputs_line Params.decided idleDone 18001 (List.replicate 200 true) j
      (by rw [List.length_replicate]; exact hj)
    rw [List.getD_replicate _ hj] at this
    exact this

/-- ReadReportsTheFrameOnTheLine: all its hypotheses together, with a frame whose bits are 01 twenty
times. -/
theorem witness_whole_read :
    ∃ (s : State) (a : Answer) (F : Frame),
      s.build.legal = true ∧ Accepts s ∧ a.Fits s.build
        ∧ Undisturbed s (3 + s.build.triggerLowMs * 1000 + (a.levels s.build).length)
        ∧ (∀ j < (a.levels s.build).length,
          (s.pinsAt (2 + s.build.triggerLowMs * 1000 + j)).line = (a.levels s.build).getD j true)
        ∧ ∀ k, ∀ h : k < a.pulses.length, F.getLsbD (39 - k) = (a.pulses[k]).bit s.build := by
  refine ⟨machine short idleDone (readInputs 18001 (edgeAnswer.levels short ++ [true])), edgeAnswer,
    0x5555555555#40, by decide, ⟨rfl, rfl, rfl, rfl⟩, edgeAnswer_fits, ?_, fun j hj => ?_, ?_⟩
  · refine undisturbed_of_sched _ _ _ _ ?_ (readInputs_enabled _ _)
    simp only [machine_build, readInputs_length, List.length_append, List.length_singleton,
      show short.triggerLowMs = 18 from rfl]
    omega
  · have hj' : j < (edgeAnswer.levels short).length := hj
    have := readInputs_line short idleDone 18001 (edgeAnswer.levels short ++ [true]) j
      (by rw [List.length_append]; omega)
    rw [List.getD_append _ _ _ _ hj'] at this
    exact this
  · decide

end Sys2Proof.Tests
end

section
/-!
The ports of a block as conditions on its registers (10_state.md R30 to R32): one equivalence per
computed output, and the obligations of the family 10_state.md.
-/

namespace Sys2Proof.Machine

/-- R30: a read is in progress exactly outside IDLE. -/
theorem busy_iff (b : Block) : busy b = true ↔ b.st ≠ .idle := bne_iff_ne

/-- R31: a success is a completed read that reports no error. -/
theorem okFlag_iff (b : Block) : okFlag b = true ↔ b.done = true ∧ b.err = errNone := by
  rw [okFlag, Bool.and_eq_true, beq_iff_eq]

/-- R32, the column `line_oe` of the Moore table: the block listens in the six waiting and sampling
states of a read. -/
theorem lineOe_eq_false_iff (st : St) :
    lineOe st = false ↔ st ∈ [St.hsAck, .hsRise, .hsFall, .bitRise, .bitDly, .bitFall] := by
  cases st <;> decide

/-- R32, the column `line_o` of the Moore table: the trigger alone shows a low. -/
theorem lineO_eq_false_iff (st : St) : lineO st = false ↔ st = .trig := by
  cases st <;> decide

/-- Settles O39: each computed output by its own equivalence, and the ports that show a register by the
definition of `outputs`. -/
theorem outputsFollowTheRegisters : Obligations.OutputsFollowTheRegisters := fun b =>
  ⟨busy_iff b, lineOe_eq_false_iff b.st, lineO_eq_false_iff b.st, okFlag_iff b, rfl⟩

end Sys2Proof.Machine
end

section
/-!
The frame as a base-256 numeral (20_memory.md R51, R53), and the obligation of the family 20_memory.md.
-/

namespace Sys2Proof.Machine

/-- R53, `sr = F[0]:F[1]:F[2]:F[3]:F[4]` as a number: the bytes are the five base-256 digits of `sr`,
and 40 bits leave no sixth. -/
theorem frame_toNat_eq_sum_bytes (sr : Frame) :
    sr.toNat = (frameByte sr 0).toNat * 2 ^ 32 + (frameByte sr 1).toNat * 2 ^ 24
      + (frameByte sr 2).toNat * 2 ^ 16 + (frameByte sr 3).toNat * 2 ^ 8 + (frameByte sr 4).toNat := by
  have noSixthDigit : sr.toNat < 2 ^ 40 := sr.isLt
  have digit0 : (frameByte sr 0).toNat = sr.toNat / 2 ^ 32 % 256 := frameByte_toNat sr 0
  have digit1 : (frameByte sr 1).toNat = sr.toNat / 2 ^ 24 % 256 := frameByte_toNat sr 1
  have digit2 : (frameByte sr 2).toNat = sr.toNat / 2 ^ 16 % 256 := frameByte_toNat sr 2
  have digit3 : (frameByte sr 3).toNat = sr.toNat / 2 ^ 8 % 256 := frameByte_toNat sr 3
  have digit4 : (frameByte sr 4).toNat = sr.toNat / 2 ^ 0 % 256 := frameByte_toNat sr 4
  omega

/-- Settles O34: the frame is the numeral of its bytes, and the two fields are by definition their
byte pairs. -/
theorem frameIsBigEndian : Obligations.FrameIsBigEndian := fun sr =>
  ⟨frame_toNat_eq_sum_bytes sr, rfl, rfl⟩

end Sys2Proof.Machine
end

section
/-!
The selection of an operation (30_encoding.md R77) and the recovery of the unused state codes (R72), and
the obligations of the family 30_encoding.md.
-/

namespace Sys2Proof.Machine

/-- Settles O4: each row of R77's table is `opAt_eq` at that row's `rst` and `start`. -/
theorem hostInputWordSelectsTheOperation : Obligations.HostInputWordSelectsTheOperation := by
  intro start st
  refine ⟨?reset, ?startInIdle, fun busy => ?startWhileBusy, ?ownOperation⟩
  case reset => rw [opAt_eq, if_pos rfl]
  case startInIdle => rw [opAt_eq, if_neg Bool.false_ne_true, if_pos ⟨rfl, rfl⟩]
  case startWhileBusy => rw [opAt_eq, if_neg Bool.false_ne_true, if_neg fun h => busy h.2]
  case ownOperation => rw [opAt_eq, if_neg Bool.false_ne_true, if_neg fun h => Bool.false_ne_true h.1]

/-- R70: the codes from 0xA on are the six unused ones. -/
theorem unused_iff (st : St) :
    0xA ≤ (stBits st).toNat ↔
      st = .illA ∨ st = .illB ∨ st = .illC ∨ st = .illD ∨ st = .illE ∨ st = .illF := by
  cases st <;> decide

/-- R30, R32: while an unused code is held the block drives the line high and is busy. -/
theorem outputs_of_unused {b : Block} (unused : 0xA ≤ (stBits b.st).toNat) :
    lineOe b.st = true ∧ lineO b.st = true ∧ busy b = true := by
  rw [busy_iff]
  rcases (unused_iff b.st).1 unused with h | h | h | h | h | h <;> rw [h] <;> decide

/-- R72: every unused code's operation sends the block to IDLE, whatever the inputs are. -/
theorem opBlock_ill {i : Instr} (hi : i ∈ [Instr.illA, .illB, .illC, .illD, .illE, .illF])
    (p : Params) (x : Pins) (b : Block) : opBlock i p x b = toIdle b := by
  simp only [List.mem_cons, List.not_mem_nil, or_false] at hi
  rcases hi with rfl | rfl | rfl | rfl | rfl | rfl <;> rfl

/-- R72: the own operation of a state with an unused code sends the block to IDLE. -/
theorem ownOp_unused (p : Params) (l : Level) {b : Block} (unused : 0xA ≤ (stBits b.st).toNat) :
    ownOp p l b = toIdle b := by
  rcases (unused_iff b.st).1 unused with h | h | h | h | h | h <;> simp only [ownOp, h, illOp]

/-- R71: outside IDLE an enabled edge without reset performs the state's own operation, `start` or no. -/
theorem edgeBlock_own {s : State} (hrst : s.pins.rst = false) (htick : s.pins.tick = true)
    (busy : s.st ≠ .idle) : edgeBlock s = ownOp s.build s.pins.line s.toBlock := by
  simp [edgeBlock, hrst, htick, busy]

/-- Settles O35: every unused code's operation is `toIdle`, and an enabled edge from such a code, which is
busy and so not IDLE, performs that operation. -/
theorem unusedCodesRecoverToIdle : Obligations.UnusedCodesRecoverToIdle := by
  intro s legal
  refine ⟨fun i hi => ?operation, fun unused => ?held⟩
  case operation =>
    rw [exec_eq_clocked, clocked_legal legal, opBlock_ill hi]
    rfl
  case held =>
    obtain ⟨oe, high, isBusy⟩ := outputs_of_unused unused
    refine ⟨oe, high, isBusy, fun hrst htick => ⟨_, step_legal legal, ?_⟩⟩
    calc edgeBlock s = ownOp s.build s.pins.line s.toBlock :=
          edgeBlock_own hrst htick ((busy_iff s.toBlock).1 isBusy)
      _ = toIdle s.toBlock := ownOp_unused _ _ unused

end Sys2Proof.Machine
end

section
/-!
What the host asks of the block and reads from it: an accepted START (40_host_interface.md R100), a START
while busy (R101) and the outcome of a read (R102), and the obligations of the family
40_host_interface.md.
-/

namespace Sys2Proof.Machine

/-! ## START in IDLE -/

/-- R100: in IDLE the operation START accepts the request. -/
theorem exec_start_idle {s : State} (legal : s.build.legal = true) (idle : s.st = .idle) :
    exec .start s = .next { s with toBlock := acceptStart s.toBlock } := by
  have accepted : opBlock .start s.build s.pins s.toBlock = acceptStart s.toBlock := if_pos idle
  rw [exec_eq_clocked, clocked_legal legal, accepted]

/-- R77, R100: an enabled edge in IDLE with a START and no reset accepts the request. -/
theorem edgeBlock_accepts {s : State} (accepts : Accepts s) : edgeBlock s = acceptStart s.toBlock := by
  obtain ⟨idle, hrst, htick, hstart⟩ := accepts
  simp [edgeBlock, idle, hrst, htick, hstart]

/-- R30 to R32: throughout the interval after an accepted START the line is driven low, and the block
is busy and shows a cleared result. -/
theorem outputs_acceptStart (b : Block) :
    outputs (acceptStart b) = { lineOe := true, lineO := false, busy := true, done := false
                                ok := false, err := errNone, hum := 0#16, temp := 0#16 } := rfl

/-- Settles O13: START in IDLE and an edge that accepts a START both do `acceptStart`, which writes all
eight registers, so that nothing of the earlier block is left to show at a port. -/
theorem startBeginsARead : Obligations.StartBeginsARead := by
  refine ⟨rfl, fun s legal idle => ⟨exec_start_idle legal idle, fun hrst htick hstart => ?edge⟩⟩
  case edge =>
    have accepted : edgeBlock s = acceptStart s.toBlock :=
      edgeBlock_accepts ⟨idle, hrst, htick, hstart⟩
    refine ⟨_, step_legal legal, accepted, ?outputs⟩
    calc outputs (edgeBlock s) = outputs (acceptStart s.toBlock) := by rw [accepted]
      _ = _ := outputs_acceptStart s.toBlock

/-! ## START while busy -/

/-- R71: the operation a state's code names does the state's own operation, where no START is requested
in IDLE. -/
theorem exec_opOf {s : State} (legal : s.build.legal = true) (h : s.pins.start = true → s.st ≠ .idle) :
    exec (opOf s.st) s = .next { s with toBlock := ownOp s.build s.pins.line s.toBlock } := by
  rw [exec_eq_clocked, clocked_legal legal, opBlock_opOf _ _ _ h]

/-- R101: outside IDLE an enabled edge without reset performs the state's own operation, whichever level
`start` is given. -/
theorem step_withStart {s : State} (legal : s.build.legal = true) (busy : s.st ≠ .idle)
    (hrst : s.pins.rst = false) (htick : s.pins.tick = true) (start : Bool) :
    ∃ t, step (s.withPins { s.pins with start := start }) = .next t
      ∧ t.toBlock = ownOp s.build s.pins.line s.toBlock :=
  ⟨_, step_legal legal, edgeBlock_own (s := s.withPins { s.pins with start := start }) hrst htick busy⟩

/-- Settles O15: with `start` at 1, with `start` at 0 and by exec of the state's operation the registers
are those of `ownOp`, which does not take `start`. -/
theorem startWhileBusyChangesNoRegister : Obligations.StartWhileBusyChangesNoRegister := by
  intro s legal busy hrst htick
  obtain ⟨t, requested, htBlock⟩ := step_withStart legal busy hrst htick true
  obtain ⟨u, unrequested, huBlock⟩ := step_withStart legal busy hrst htick false
  have own := exec_opOf (s := s.withPins { s.pins with start := false }) legal fun _ => busy
  exact ⟨t, u, _, requested, unrequested, own, htBlock.trans huBlock.symm, huBlock⟩

/-! ## The outcome of a read -/

/-- R102: there is no outcome exactly while a read is in progress and before one has completed. -/
theorem readOutcome_eq_none_iff (b : Block) :
    readOutcome b = none ↔ busy b = true ∨ b.done = false := by
  unfold readOutcome
  split
  next pending => simpa using pending
  next completed => split <;> simpa using completed

/-- R102: a completed read without an error is the reading of `temp` and `hum`. -/
theorem readOutcome_of_success {b : Block} (idle : busy b = false) (completed : b.done = true)
    (success : b.err = errNone) : readOutcome b = some (.reading b.temp.toInt b.hum.toNat) := by
  simp [readOutcome, idle, completed, success, errNone]

/-- R102: a completed read with the code of an error is that error. -/
theorem readOutcome_of_failure {b : Block} (idle : busy b = false) (completed : b.done = true)
    (e : ErrKind) (failure : b.err = errCode e) : readOutcome b = some (.failed e) := by
  cases e <;> simp [readOutcome, idle, completed, failure, errCode]

/-- Settles O40: the three error rows of R102 are one lemma at the three error kinds. -/
theorem outcomeIsReadFromTheResultRegisters : Obligations.OutcomeIsReadFromTheResultRegisters :=
  fun b => ⟨(readOutcome_eq_none_iff b).2, fun idle completed =>
    ⟨readOutcome_of_success idle completed,
      readOutcome_of_failure idle completed .noResponse,
      readOutcome_of_failure idle completed .timeout,
      readOutcome_of_failure idle completed .checksumFailed⟩⟩

end Sys2Proof.Machine
end

section
/-!
The handshake of a read, IDLE to HS_FALL (41_handshake.md R110, R112 to R117), and the obligations of the
family 41_handshake.md.
-/

namespace Sys2Proof.Machine

/-! ## Operations at an edge -/

/-- R13: an operation of a legal build completes, and writes what its register function writes. -/
theorem exec_legal {s : State} (legal : s.build.legal = true) (i : Instr) :
    exec i s = .next { s with toBlock := opBlock i s.build s.pins s.toBlock } := by
  rw [exec_eq_clocked, clocked_legal legal]

/-- R30, R32: a block that listens to the line is in a read. -/
theorem released_and_busy {b : Block} (released : lineOe b.st = false) :
    lineOe b.st = false ∧ busy b = true := by
  refine ⟨released, (busy_iff b).2 fun idle => ?_⟩
  rw [idle] at released
  cases released

/-- R110: the three outcomes of a wait, the last sample being the one taken at `tcnt = limit - 1`. -/
theorem wait_eq {limit : Nat} (positive : 1 ≤ limit) (level : Level) (next : St) (e : ErrKind)
    (line : Level) (b : Block) :
    wait level limit next e line b =
      if line = level then enter next b
      else if b.tcnt.toNat + 1 = limit then raiseError e b
      else countTick b := by
  have lastSample : b.tcnt.toNat = limit - 1 ↔ b.tcnt.toNat + 1 = limit := by omega
  simp only [wait, lastSample]

/-- R110, R161: an operation that is a wait writes the registers that the wait's outcome names. -/
theorem exec_wait {s : State} (legal : s.build.legal = true) {i : Instr} {w : WaitFor}
    (isWait : opBlock i s.build s.pins s.toBlock
      = wait w.level w.limit w.next w.err s.pins.line s.toBlock)
    (positive : 1 ≤ w.limit) :
    exec i s = .next (
      if s.pins.line = w.level then { s with st := w.next, tcnt := 0#16 }
      else if s.tcnt.toNat + 1 = w.limit then
        { s with st := .idle, tcnt := 0#16, bitcnt := 0#6, sr := 0#40, done := true
                 err := errCode w.err }
      else { s with tcnt := s.tcnt + 1#16 }) := by
  rw [exec_legal legal, isWait, wait_eq positive]
  split
  · rfl
  · split <;> rfl

/-! ## The order of states -/

/-- R60: IDLE is a successor of every state of a read. -/
theorem idle_mem_successors {p : Params} {st : St} (busy : st ≠ .idle) : .idle ∈ successors p st := by
  cases st <;> simp [successors] at busy ⊢

/-- R115 to R117, R130, R132: IDLE does not wait. -/
theorem waitOf_ne_idle {p : Params} {n : BitCount} {st : St} {w : WaitFor}
    (hw : waitOf p n st = some w) : st ≠ .idle := by
  rintro rfl
  cases hw

/-- R60: the state that a wait leads to is a successor of the waiting state. -/
theorem waitOf_next_mem_successors {p : Params} {n : BitCount} {st : St} {w : WaitFor}
    (hw : waitOf p n st = some w) : w.next ∈ successors p st := by
  cases st <;> cases hw
  case bitFall => by_cases all : n.toNat = 40 <;> simp [successors, all]
  all_goals simp [successors, afterAck]

/-- R60: a state's own operation stays in the state or goes to a successor that the rules name. -/
theorem Own.st_eq_or_mem_successors {p : Params} {l : Level} {b b' : Block} (own : Own p l b b') :
    b'.st = b.st ∨ b'.st ∈ successors p b.st := by
  cases own with
  | idle | trigCount | waiting | delay => exact .inl rfl
  | trigEnd h | rel h => rw [h]; exact .inr (.head _)
  | valid h | invalid h => exact .inr (idle_mem_successors (by rw [h]; decide))
  | sample h =>
    rw [h]; right
    simp only [afterSample, successors]
    split_ifs <;> simp
  | seen w hw => exact .inr (waitOf_next_mem_successors hw)
  | exhausted w hw => exact .inr (idle_mem_successors (waitOf_ne_idle hw))
  | unused h =>
    refine .inr (idle_mem_successors fun idle => ?_)
    rw [idle] at h
    exact absurd h (by decide)

/-- R60: a step that changes the state goes to a successor that the rules name. -/
theorem step_st_mem_successors {s t : State} (h : step s = .next t) (moved : t.st ≠ s.st) :
    t.st ∈ successors s.build s.st := by
  rw [step_toBlock h] at moved ⊢
  rcases edgeBlock_cases s with ⟨_, e⟩ | ⟨_, accepts, e⟩ | ⟨_, e⟩ | ⟨_, e⟩ <;> rw [e] at moved ⊢
  · exact idle_mem_successors moved.symm
  · rw [accepts.1]; exact .head _
  · exact absurd rfl moved
  · exact (own_ownOp s.build s.pins.line s.toBlock).st_eq_or_mem_successors.resolve_left moved

/-- R115, R116: HS_RISE follows HS_ACK alone, and only in a build with a high phase. -/
theorem hsRise_mem_successors {p : Params} {st : St} (h : St.hsRise ∈ successors p st) :
    st = .hsAck ∧ p.ackHighPhase = 1 := by
  cases st <;> simp [successors, afterAck] at h ⊢
  exact h

/-- R117: HS_FALL follows HS_RISE alone. -/
theorem hsFall_mem_successors {p : Params} {st : St} (h : St.hsFall ∈ successors p st) :
    st = .hsRise := by
  cases st <;> simp [successors, afterAck] at h ⊢
  split_ifs at h

/-! ## IDLE -/

/-- R24, R36: where the counter's limit is 1, a state of the invariant holds it at 0. -/
theorem Inv.tcnt_eq_zero {s : State} (inv : Inv s) (h : tickLimit s.build s.st = 1) :
    s.tcnt = 0#16 :=
  BitVec.eq_of_toNat_eq (Nat.lt_one_iff.1 (h ▸ inv.ticks))

/-- R25, R36: outside the bit sampler and CHECK, no bit is counted in a state of the invariant. -/
theorem Inv.bitcnt_eq_zero {s : State} (inv : Inv s) (h : bitRange s.st = (0, 0)) :
    s.bitcnt = 0#6 :=
  BitVec.eq_of_toNat_eq (Nat.le_zero.1 (by simpa [h] using inv.bits.2))

/-- R51: a frame of no bits is 0. -/
theorem Inv.sr_eq_zero {s : State} (inv : Inv s) (h : s.bitcnt = 0#6) : s.sr = 0#40 :=
  BitVec.eq_of_toNat_eq (Nat.lt_one_iff.1 (by simpa [h] using inv.frame))

/-- Settles O17: with a START `idleOp` is `acceptStart` and without one the registers themselves; in
IDLE the invariant leaves the datapath the one value 0. -/
theorem idleWaitsForStart : Obligations.IdleWaitsForStart := by
  refine ⟨rfl, fun s legal => ⟨fun start => ?requested, fun start => ?unrequested, fun idle => ?outputs,
    fun inv idle => ?datapath⟩⟩
  case requested =>
    have accepted : opBlock .idle s.build s.pins s.toBlock = acceptStart s.toBlock := if_pos start
    rw [exec_legal legal, accepted]
    rfl
  case unrequested =>
    have kept : opBlock .idle s.build s.pins s.toBlock = s.toBlock :=
      if_neg (Bool.eq_false_iff.1 start)
    rw [exec_legal legal, kept]
  case outputs => simp only [busy, idle]; decide
  case datapath =>
    have noBits : s.bitcnt = 0#6 := inv.bitcnt_eq_zero (by rw [idle]; rfl)
    exact ⟨inv.tcnt_eq_zero (by rw [idle]; rfl), noBits, inv.sr_eq_zero noBits⟩

/-! ## TRIG -/

/-- R9, R24: TRIG lasts for at least one tick, and its counts fit the counter. -/
theorem trigTicks_bounds {p : Params} (legal : p.legal = true) :
    1 ≤ p.trigTicks ∧ p.trigTicks < 2 ^ 16 := by
  have := limits legal
  unfold Params.trigTicks
  omega

/-- R113: TRIG counts up to its last tick, `tcnt = TRIG_TICKS - 1`, and then enters REL. -/
theorem trigOp_eq {p : Params} (legal : p.legal = true) (b : Block) :
    trigOp p b = if b.tcnt.toNat + 1 = p.trigTicks then enter .rel b else countTick b := by
  obtain ⟨positive, -⟩ := trigTicks_bounds legal
  have lastTick : b.tcnt.toNat = p.trigTicks - 1 ↔ b.tcnt.toNat + 1 = p.trigTicks := by omega
  simp only [trigOp, lastTick]

/-- R71: the own operation of TRIG. -/
theorem ownOp_trig {p : Params} (legal : p.legal = true) (l : Level) {b : Block} (trig : b.st = .trig) :
    ownOp p l b = if b.tcnt.toNat + 1 = p.trigTicks then enter .rel b else countTick b := by
  simp only [ownOp, trig, trigOp_eq legal]

/-- R113: a TRIG entered with `tcnt = 0` holds the count `j` after `j` undisturbed edges, up to its last
count. -/
theorem edges_trig_counts {s : State} (legal : s.build.legal = true) (trig : s.st = .trig)
    (zero : s.tcnt = 0#16) (enabled : Undisturbed s s.build.trigTicks) {j : Nat}
    (hj : j < s.build.trigTicks) :
    ∃ t, edges j s = .next t ∧ t.toBlock = { s.toBlock with tcnt := BitVec.ofNat 16 j } := by
  obtain ⟨-, fits⟩ := trigTicks_bounds legal
  have counts : ∀ i < j, ∀ b : Block, b = { s.toBlock with tcnt := s.tcnt + BitVec.ofNat 16 i } →
      ownOp s.build (s.pinsAt i).line b = countTick b := by
    intro i hi b hb
    have held : b.st = .trig := by rw [hb]; exact trig
    have count : b.tcnt = BitVec.ofNat 16 i := by rw [hb, zero]; exact BitVec.zero_add _
    have notLast : b.tcnt.toNat + 1 ≠ s.build.trigTicks := by
      rw [count, BitVec.toNat_ofNat, Nat.mod_eq_of_lt (by omega)]
      omega
    rw [ownOp_trig legal _ held, if_neg notLast]
  obtain ⟨t, run, block⟩ := edges_count legal j (fun i hi => enabled i (by omega))
    (by rw [trig]; decide) counts
  exact ⟨t, run, by rw [block, zero, BitVec.zero_add]⟩

/-- R113: a TRIG entered with `tcnt = 0` ends in REL at its TRIG_TICKS-th undisturbed edge. -/
theorem edges_trig_ends {s : State} (legal : s.build.legal = true) (trig : s.st = .trig)
    (zero : s.tcnt = 0#16) (enabled : Undisturbed s s.build.trigTicks) :
    ∃ t, edges s.build.trigTicks s = .next t ∧ t.toBlock = enter .rel s.toBlock := by
  obtain ⟨positive, fits⟩ := trigTicks_bounds legal
  obtain ⟨n, hn⟩ : ∃ n, s.build.trigTicks = n + 1 := Nat.exists_eq_add_of_le' positive
  obtain ⟨t, run, block⟩ := edges_trig_counts legal trig zero enabled (j := n) (by omega)
  have held : t.st = .trig := by rw [block]; exact trig
  have last : t.tcnt.toNat + 1 = s.build.trigTicks := by
    rw [block, BitVec.toNat_ofNat, Nat.mod_eq_of_lt (by omega), hn]
  obtain ⟨u, run', own⟩ := edges_own legal run (enabled n (by omega)) (by rw [held]; decide)
  refine ⟨u, by rw [hn]; exact run', ?_⟩
  rw [own, ownOp_trig legal _ held, if_pos last, block]
  rfl

/-- Settles O18: one edge of TRIG is `trigOp_eq`; over its undisturbed edges `tcnt` is the number of
edges passed, so that the last one is the TRIG_TICKS-th. -/
theorem trigHoldsTheLineLow : Obligations.TrigHoldsTheLineLow := by
  refine ⟨rfl, fun s legal => ⟨?operation, fun trig => ?outputs, fun trig zero enabled =>
    ⟨fun j hj => ?held, edges_trig_ends legal trig zero enabled⟩⟩⟩
  case operation =>
    have registers : opBlock .trig s.build s.pins s.toBlock = _ := trigOp_eq legal s.toBlock
    rw [exec_legal legal, registers]
    unfold Params.trigTicks
    split <;> rfl
  case outputs => simp only [busy, trig]; decide
  case held =>
    obtain ⟨t, run, block⟩ := edges_trig_counts legal trig zero enabled hj
    exact ⟨t, run, by rw [block]; exact trig⟩

/-! ## REL -/

/-- Settles O19: `relOp` is `enter`, and the outputs are rows of R32's table. -/
theorem relReleasesTheLine : Obligations.RelReleasesTheLine := by
  refine ⟨rfl, rfl, fun s legal => ⟨exec_legal legal .rel, fun rel => ?outputs⟩⟩
  case outputs => simp only [busy, rel]; decide

/-! ## HS_ACK, HS_RISE and HS_FALL -/

/-- Settles O20: HS_ACK is the wait for a low of at most HS_TIMEOUT_US samples. -/
theorem hsAckWaitsForTheAcknowledgment : Obligations.HsAckWaitsForTheAcknowledgment := by
  refine ⟨rfl, fun s legal => ⟨?operation, fun held => released_and_busy (by rw [held]; rfl)⟩⟩
  case operation =>
    obtain ⟨-, -, positive, -⟩ := limits legal
    exact exec_wait legal (w := ⟨false, s.build.hsTimeoutUs, afterAck s.build, .noResponse⟩) rfl positive

/-- Settles O21: HS_RISE is the wait for a high of at most EDGE_TIMEOUT_US samples, and follows HS_ACK
only in a build with a high phase. -/
theorem hsRiseWaitsForTheHighPhase : Obligations.HsRiseWaitsForTheHighPhase := by
  refine ⟨rfl, fun s legal => ⟨?operation, fun held => released_and_busy (by rw [held]; rfl),
    fun t noPhase elsewhere next entered => ?entry⟩⟩
  case operation =>
    obtain ⟨-, -, -, -, positive, -⟩ := limits legal
    exact exec_wait legal (w := ⟨true, s.build.edgeTimeoutUs, .hsFall, .timeout⟩) rfl positive
  case entry =>
    have successor := step_st_mem_successors next (entered ▸ elsewhere.symm)
    obtain ⟨-, phase⟩ := hsRise_mem_successors (entered ▸ successor)
    omega

/-- Settles O22: HS_FALL is the wait for a low of at most EDGE_TIMEOUT_US samples, holds no bit in a state
of the invariant, and follows HS_RISE alone. -/
theorem hsFallWaitsForTheFirstDataBit : Obligations.HsFallWaitsForTheFirstDataBit := by
  refine ⟨rfl, fun s legal => ⟨?operation, fun held => released_and_busy (by rw [held]; rfl),
    fun inv held => inv.bitcnt_eq_zero (by rw [held]; rfl),
    fun t _ notRise elsewhere next entered => ?entry⟩⟩
  case operation =>
    obtain ⟨-, -, -, -, positive, -⟩ := limits legal
    exact exec_wait legal (w := ⟨false, s.build.edgeTimeoutUs, .bitRise, .timeout⟩) rfl positive
  case entry =>
    have successor := step_st_mem_successors next (entered ▸ elsewhere.symm)
    exact notRise (hsFall_mem_successors (entered ▸ successor))

end Sys2Proof.Machine
end

section
/-!
The bit sampler, BIT_RISE, BIT_DLY and BIT_FALL (42_bit_sampler.md R130 to R132), and the obligations of
the family 42_bit_sampler.md.
-/

namespace Sys2Proof.Machine

/-! ## Entry to a state past HS_ACK -/

/-- R110, R131: an own operation that enters a state past HS_ACK is a wait that saw its level or the
sample of a bit. -/
theorem Own.seen_or_sampled {p : Params} {l : Level} {b b' : Block} (own : Own p l b b')
    (moved : b'.st ≠ b.st) (past : b'.st ∉ [St.idle, .trig, .rel, .hsAck]) :
    (∃ w, waitOf p b.bitcnt b.st = some w ∧ l = w.level ∧ b'.st = w.next)
      ∨ (b.st = .bitDly ∧ b'.st = afterSample l b.bitcnt) := by
  cases own with
  | seen w hw level => exact .inl ⟨w, hw, level, rfl⟩
  | sample dly => exact .inr ⟨dly, rfl⟩
  | idle | trigCount | waiting | delay => exact absurd rfl moved
  | trigEnd | rel | exhausted | valid | invalid | unused => simp at past

/-- R77, R110, R131: a step that enters a state past HS_ACK is a wait that saw its level at this edge or
the sample of a bit. -/
theorem step_seen_or_sampled {s t : State} (h : step s = .next t) (moved : t.st ≠ s.st)
    (past : t.st ∉ [St.idle, .trig, .rel, .hsAck]) :
    (∃ w, waitOf s.build s.bitcnt s.st = some w ∧ s.pins.line = w.level ∧ t.st = w.next)
      ∨ (s.st = .bitDly ∧ t.st = afterSample s.pins.line s.bitcnt) := by
  rw [step_toBlock h] at moved past ⊢
  rcases edgeBlock_cases s with ⟨_, e⟩ | ⟨_, _, e⟩ | ⟨_, e⟩ | ⟨_, e⟩ <;> rw [e] at moved past ⊢
  · exact absurd (.head _) past
  · exact absurd (.tail _ (.head _)) past
  · exact absurd rfl moved
  · exact (own_ownOp s.build s.pins.line s.toBlock).seen_or_sampled moved past

/-- R115, R117, R132: a wait that leads to BIT_RISE waits for a low. -/
theorem waitOf_level_of_next_bitRise {p : Params} {n : BitCount} {st : St} {w : WaitFor}
    (hw : waitOf p n st = some w) (next : w.next = .bitRise) : w.level = false := by
  cases st <;> cases hw
  case hsAck | hsFall | bitFall => rfl
  case hsRise | bitRise => cases next

/-- R60, R132: no wait leads to BIT_FALL. -/
theorem waitOf_next_ne_bitFall {p : Params} {n : BitCount} {st : St} {w : WaitFor}
    (hw : waitOf p n st = some w) : w.next ≠ .bitFall := by
  intro next
  have successor : St.bitFall ∈ successors p st := next ▸ waitOf_next_mem_successors hw
  cases st <;> simp [successors, afterAck] at successor
  case hsAck => split_ifs at successor
  case bitDly => cases hw

/-- R131: BIT_FALL follows exactly a sample of 1. -/
theorem afterSample_eq_bitFall_iff (bit : Level) (n : BitCount) :
    afterSample bit n = .bitFall ↔ bit = true := by
  unfold afterSample
  split_ifs with one <;> simp [one]

/-- R131: the sample ends the delay. -/
theorem afterSample_ne_bitDly (bit : Level) (n : BitCount) : afterSample bit n ≠ .bitDly := by
  unfold afterSample
  split_ifs <;> decide

/-! ## BIT_RISE -/

/-- R130: BIT_RISE is entered only at an edge whose sample showed low. -/
theorem line_low_of_step_enters_bitRise {s t : State} (h : step s = .next t) (elsewhere : s.st ≠ .bitRise)
    (entered : t.st = .bitRise) : s.pins.line = false := by
  rcases step_seen_or_sampled h (entered ▸ elsewhere.symm) (by rw [entered]; decide) with
    ⟨w, hw, level, next⟩ | ⟨_, next⟩
  · rw [level, waitOf_level_of_next_bitRise hw (next ▸ entered)]
  · refine Bool.eq_false_iff.2 fun one => ?_
    rw [entered, (afterSample_eq_bitFall_iff _ _).2 one] at next
    cases next

/-- Settles O24: BIT_RISE is the wait for a high of at most EDGE_TIMEOUT_US samples, and what leads to it
is a wait for a low or a sample of 0. -/
theorem bitRiseWaitsForTheStartOfABit : Obligations.BitRiseWaitsForTheStartOfABit := by
  refine ⟨rfl, fun s legal => ⟨?operation, fun held => released_and_busy (by rw [held]; rfl),
    fun _ => line_low_of_step_enters_bitRise⟩⟩
  case operation =>
    obtain ⟨-, -, -, -, positive, -⟩ := limits legal
    exact exec_wait legal (w := ⟨true, s.build.edgeTimeoutUs, .bitDly, .timeout⟩) rfl positive

/-! ## Delays -/

/-- R24: a state that counts below its limit, entered with `tcnt = 0`, holds the count `j` after `j`
undisturbed edges, up to its last count. -/
theorem edges_counts_below_limit {s : State} {limit : Nat} (legal : s.build.legal = true)
    (busy : s.st ≠ .idle) (zero : s.tcnt = 0#16) (fits : limit < 2 ^ 16)
    (counts : ∀ l b, b.st = s.st → b.tcnt.toNat + 1 ≠ limit → ownOp s.build l b = countTick b)
    (enabled : Undisturbed s limit) {j : Nat} (hj : j < limit) :
    ∃ t, edges j s = .next t ∧ t.toBlock = { s.toBlock with tcnt := BitVec.ofNat 16 j } := by
  have notLast : ∀ i < j, (s.tcnt + BitVec.ofNat 16 i).toNat + 1 ≠ limit := by
    intro i hi
    rw [zero, BitVec.zero_add, BitVec.toNat_ofNat, Nat.mod_eq_of_lt (by omega)]
    omega
  obtain ⟨t, run, block⟩ := edges_count legal j (fun i hi => enabled i (by omega)) busy
    fun i hi b hb => counts _ b (by rw [hb]) (by rw [hb]; exact notLast i hi)
  exact ⟨t, run, by rw [block, zero, BitVec.zero_add]⟩

/-- R24: the `limit`-th undisturbed edge of such a state performs its own operation at the last count. -/
theorem edges_own_at_limit {s : State} {limit : Nat} (legal : s.build.legal = true)
    (busy : s.st ≠ .idle) (zero : s.tcnt = 0#16) (positive : 1 ≤ limit) (fits : limit < 2 ^ 16)
    (counts : ∀ l b, b.st = s.st → b.tcnt.toNat + 1 ≠ limit → ownOp s.build l b = countTick b)
    (enabled : Undisturbed s limit) :
    ∃ t, edges limit s = .next t ∧ t.toBlock = ownOp s.build (s.pinsAt (limit - 1)).line
      { s.toBlock with tcnt := BitVec.ofNat 16 (limit - 1) } := by
  obtain ⟨t, run, block⟩ :=
    edges_counts_below_limit legal busy zero fits counts enabled (j := limit - 1) (by omega)
  obtain ⟨u, run', own⟩ := edges_own legal run (enabled (limit - 1) (by omega)) (by rw [block]; exact busy)
  rw [Nat.sub_add_cancel positive] at run'
  exact ⟨u, run', by rw [own, block]⟩

/-! ## BIT_DLY -/

/-- The registers after the sample `line` of a bit (42_bit_sampler.md R131). -/
def sampleBit (line : Level) (b : Block) : Block :=
  { b with
    sr := shiftIn b.sr line
    bitcnt := b.bitcnt + 1#6
    tcnt := 0#16
    st := afterSample line b.bitcnt }

/-- R131: BIT_DLY counts up to `tcnt = SAMPLE_DELAY_US - 1`, and then samples the bit. -/
theorem bitDlyOp_eq {p : Params} (legal : p.legal = true) (l : Level) (b : Block) :
    bitDlyOp p l b = if b.tcnt.toNat + 1 = p.sampleDelayUs then sampleBit l b else countTick b := by
  obtain ⟨-, -, -, -, -, -, positive, -⟩ := limits legal
  have lastTick : b.tcnt.toNat = p.sampleDelayUs - 1 ↔ b.tcnt.toNat + 1 = p.sampleDelayUs := by omega
  simp only [bitDlyOp, lastTick, sampleBit]

/-- R71: the own operation of BIT_DLY. -/
theorem ownOp_bitDly {p : Params} (legal : p.legal = true) (l : Level) {b : Block} (dly : b.st = .bitDly) :
    ownOp p l b = if b.tcnt.toNat + 1 = p.sampleDelayUs then sampleBit l b else countTick b := by
  simp only [ownOp, dly, bitDlyOp_eq legal]

/-- R131: before its last count BIT_DLY counts, whatever the line shows. -/
theorem ownOp_bitDly_counts {s : State} (legal : s.build.legal = true) (dly : s.st = .bitDly)
    (l : Level) (b : Block) (same : b.st = s.st) (notLast : b.tcnt.toNat + 1 ≠ s.build.sampleDelayUs) :
    ownOp s.build l b = countTick b := by
  rw [ownOp_bitDly legal l (same.trans dly), if_neg notLast]

/-- R131: a BIT_DLY entered with `tcnt = 0` is held before its SAMPLE_DELAY_US-th undisturbed edge. -/
theorem edges_bitDly_held {s : State} (legal : s.build.legal = true) (dly : s.st = .bitDly)
    (zero : s.tcnt = 0#16) (enabled : Undisturbed s s.build.sampleDelayUs) {j : Nat}
    (hj : j < s.build.sampleDelayUs) : ∃ t, edges j s = .next t ∧ t.st = .bitDly := by
  obtain ⟨-, -, -, -, -, -, -, fits, -⟩ := limits legal
  obtain ⟨t, run, block⟩ := edges_counts_below_limit legal (by rw [dly]; decide) zero (by omega)
    (ownOp_bitDly_counts legal dly) enabled hj
  exact ⟨t, run, by rw [block]; exact dly⟩

/-- R131: a BIT_DLY entered with `tcnt = 0` takes its sample at its SAMPLE_DELAY_US-th undisturbed
edge. -/
theorem edges_bitDly_samples {s : State} (legal : s.build.legal = true) (dly : s.st = .bitDly)
    (zero : s.tcnt = 0#16) (enabled : Undisturbed s s.build.sampleDelayUs) :
    ∃ t, edges s.build.sampleDelayUs s = .next t
      ∧ t.toBlock = sampleBit (s.pinsAt (s.build.sampleDelayUs - 1)).line s.toBlock := by
  obtain ⟨-, -, -, -, -, -, positive, fits, -⟩ := limits legal
  obtain ⟨t, run, own⟩ := edges_own_at_limit legal (by rw [dly]; decide) zero positive (by omega)
    (ownOp_bitDly_counts legal dly) enabled
  have last : (BitVec.ofNat 16 (s.build.sampleDelayUs - 1)).toNat + 1 = s.build.sampleDelayUs := by
    rw [BitVec.toNat_ofNat, Nat.mod_eq_of_lt (by omega), Nat.sub_add_cancel positive]
  exact ⟨t, run, own.trans ((ownOp_bitDly legal _ (by exact dly)).trans (if_pos last))⟩

/-- Settles O25: one edge of BIT_DLY is `bitDlyOp_eq`; over its undisturbed edges `tcnt` is the number of
edges passed, so that the SAMPLE_DELAY_US-th takes the sample, which leaves the state. -/
theorem bitDlySamplesAndShifts : Obligations.BitDlySamplesAndShifts := by
  refine ⟨rfl, fun s legal => ⟨?operation, fun held => released_and_busy (by rw [held]; rfl),
    fun dly zero enabled => ⟨fun j => edges_bitDly_held legal dly zero enabled, ?sample⟩⟩⟩
  case operation =>
    have registers : opBlock .bitDly s.build s.pins s.toBlock = _ :=
      bitDlyOp_eq legal s.pins.line s.toBlock
    rw [exec_legal legal, registers]
    split <;> rfl
  case sample =>
    obtain ⟨t, run, block⟩ := edges_bitDly_samples legal dly zero enabled
    exact ⟨t, run, by rw [block]; exact afterSample_ne_bitDly _ _, by rw [block]; rfl⟩

/-! ## BIT_FALL -/

/-- R132: BIT_FALL is entered only from BIT_DLY, at a sample of 1. -/
theorem sampled_one_of_step_enters_bitFall {s t : State} (h : step s = .next t)
    (elsewhere : s.st ≠ .bitFall) (entered : t.st = .bitFall) : s.st = .bitDly ∧ s.pins.line = true := by
  rcases step_seen_or_sampled h (entered ▸ elsewhere.symm) (by rw [entered]; decide) with
    ⟨w, hw, _, next⟩ | ⟨dly, next⟩
  · exact absurd (next ▸ entered) (waitOf_next_ne_bitFall hw)
  · exact ⟨dly, (afterSample_eq_bitFall_iff _ _).1 (next ▸ entered)⟩

/-- Settles O26: BIT_FALL is the wait for a low of at most EDGE_TIMEOUT_US samples, and follows the
sample of a 1 alone. -/
theorem bitFallWaitsForTheEndOfAOne : Obligations.BitFallWaitsForTheEndOfAOne := by
  refine ⟨rfl, fun s legal => ⟨?operation, fun held => released_and_busy (by rw [held]; rfl),
    fun _ => sampled_one_of_step_enters_bitFall⟩⟩
  case operation =>
    obtain ⟨-, -, -, -, positive, -⟩ := limits legal
    exact exec_wait legal (w := ⟨false, s.build.edgeTimeoutUs, afterFall s.bitcnt, .timeout⟩) rfl positive

end Sys2Proof.Machine
end

section
/-!
The checksum validator and the sign-bit extractor (43_validate.md R140 to R144), and the obligations of
the family 43_validate.md.
-/

namespace Sys2Proof.Machine

/-! ## The checksum -/

/-- R141: the sum of four bytes is at most 1020, so ten bits hold it exactly. -/
theorem frameSum_toNat (sr : Frame) :
    (frameSum sr).toNat = (frameByte sr 0).toNat + (frameByte sr 1).toNat
      + (frameByte sr 2).toNat + (frameByte sr 3).toNat := by
  have byte (i : Fin 5) : (frameByte sr i).toNat < 256 := (frameByte sr i).isLt
  have := byte 0
  have := byte 1
  have := byte 2
  have := byte 3
  simp only [frameSum, BitVec.toNat_add, BitVec.toNat_setWidth]
  omega

/-- R141: a frame passes where its first four bytes sum to the fifth modulo 256. -/
theorem checksumOK_iff (sr : Frame) :
    checksumOK sr = true ↔ ((frameByte sr 0).toNat + (frameByte sr 1).toNat
      + (frameByte sr 2).toNat + (frameByte sr 3).toNat) % 256 = (frameByte sr 4).toNat := by
  have lowByte : (frameChecksum sr).toNat = (frameSum sr).toNat % 256 := by
    simp [frameChecksum]
  rw [checksumOK, beq_iff_eq, ← BitVec.toNat_inj, lowByte, frameSum_toNat]

/-- Settles O31: the exact sum, and the low byte that the validator compares. -/
theorem checksumIsTheSumModulo256 : Obligations.ChecksumIsTheSumModulo256 := fun sr =>
  ⟨frameSum_toNat sr, checksumOK_iff sr⟩

/-! ## Humidity -/

/-- R142: humidity is the first two bytes as one unsigned number, the high byte first. -/
theorem decodeHumidity_toNat (sr : Frame) :
    (decodeHumidity sr).toNat = (frameByte sr 0).toNat * 256 + (frameByte sr 1).toNat := by
  have low := (frameByte sr 1).isLt
  rw [decodeHumidity, h16, BitVec.toNat_append, ← Nat.shiftLeft_add_eq_or_of_lt low, Nat.shiftLeft_eq]

/-- R140: a CHECK that passes writes the decoded humidity. -/
theorem checkOp_hum {b : Block} (passes : checksumOK b.sr = true) :
    (checkOp b).hum = decodeHumidity b.sr := by
  rw [checkOp, if_pos passes]

/-- Settles O32: the number by `decodeHumidity_toNat`, the write by `checkOp_hum`. -/
theorem humidityIsTheFirstTwoBytes : Obligations.HumidityIsTheFirstTwoBytes := fun s =>
  ⟨decodeHumidity_toNat s.sr, fun legal passes => ⟨_, exec_legal legal .check, checkOp_hum passes⟩⟩

/-! ## Temperature -/

/-- R143: a magnitude has 15 bits. -/
theorem magnitude_lt (t : BitVec 16) : (magnitude t).toNat < 0x8000 := by
  rw [magnitude_toNat]
  exact Nat.mod_lt _ (by decide)

/-- R143: the temperature that a sign and magnitude stand for, in tenths of a degree. -/
def signedMagnitude (t : BitVec 16) : Int :=
  if signBit t = true then -((magnitude t).toNat : Int) else ((magnitude t).toNat : Int)

/-- R143, R144: 15 bits of magnitude stay clear of -32768 on the one side and 32768 on the other. -/
theorem signedMagnitude_bounds (t : BitVec 16) :
    -0x8000 < signedMagnitude t ∧ signedMagnitude t < 0x8000 := by
  have := magnitude_lt t
  unfold signedMagnitude
  split <;> omega

/-- R144: the two's complement of a field is the word of its signed magnitude. -/
theorem decodeTemperatureField_eq (t : BitVec 16) :
    decodeTemperatureField t = BitVec.ofInt 16 (signedMagnitude t) := by
  have := magnitude_lt t
  unfold decodeTemperatureField signedMagnitude
  split
  case isTrue =>
    rw [← BitVec.toNat_inj, BitVec.toNat_ofNat, BitVec.toNat_ofInt]
    omega
  case isFalse => rw [BitVec.ofInt_natCast, BitVec.ofNat_toNat, BitVec.setWidth_eq]

/-- R144: the decoded temperature, read as a signed number, is the signed magnitude of its field. -/
theorem decodeTemperature_toInt (sr : Frame) :
    (decodeTemperature sr).toInt = signedMagnitude (t16 sr) := by
  obtain ⟨low, high⟩ := signedMagnitude_bounds (t16 sr)
  rw [decodeTemperature, decodeTemperatureField_eq]
  exact BitVec.toInt_ofInt_eq_self (by decide) (by omega) (by omega)

/-- R143: the sign of the temperature is the top bit of byte 2. -/
theorem signBit_t16_iff (sr : Frame) : signBit (t16 sr) = true ↔ 0x80 ≤ (frameByte sr 2).toNat := by
  have low : (frameByte sr 3).toNat < 256 := (frameByte sr 3).isLt
  rw [signBit_iff, t16_toNat]
  omega

/-- Settles O33: the signed magnitude of a field is never -32768, the value of the word 0x8000. -/
theorem temperatureIsSignAndMagnitude : Obligations.TemperatureIsSignAndMagnitude := by
  refine fun sr => ⟨?magnitude, signBit_t16_iff sr, decodeTemperature_toInt sr, fun least => ?range⟩
  case magnitude => rw [magnitude_toNat, t16_toNat]
  case range =>
    have value : signedMagnitude (t16 sr) = (0x8000#16).toInt := least ▸ (decodeTemperature_toInt sr).symm
    have bounds := signedMagnitude_bounds (t16 sr)
    rw [value] at bounds
    exact absurd bounds (by decide)

/-! ## CHECK -/

/-- R51, R141: the validator's condition on the digits of `sr` to the base 256. -/
theorem checksumOK_iff_digits (sr : Frame) :
    checksumOK sr = true ↔ (sr.toNat / 2 ^ 32 % 256 + sr.toNat / 2 ^ 24 % 256
      + sr.toNat / 2 ^ 16 % 256 + sr.toNat / 2 ^ 8 % 256) % 256 = sr.toNat % 256 := by
  simp [checksumOK_iff, frameByte_toNat]

/-- R51, R142: humidity is the top 16 bits of `sr`. -/
theorem decodeHumidity_eq (sr : Frame) : decodeHumidity sr = BitVec.ofNat 16 (sr.toNat / 2 ^ 24) := by
  have digit0 : (frameByte sr 0).toNat = sr.toNat / 2 ^ 32 % 256 := frameByte_toNat sr 0
  have digit1 : (frameByte sr 1).toNat = sr.toNat / 2 ^ 24 % 256 := frameByte_toNat sr 1
  rw [← BitVec.toNat_inj, decodeHumidity_toNat, BitVec.toNat_ofNat]
  omega

/-- R51: the temperature field is bits 23:8 of `sr`. -/
theorem t16_toNat_eq (sr : Frame) : (t16 sr).toNat = sr.toNat / 2 ^ 8 % 2 ^ 16 := by
  have digit2 : (frameByte sr 2).toNat = sr.toNat / 2 ^ 16 % 256 := frameByte_toNat sr 2
  have digit3 : (frameByte sr 3).toNat = sr.toNat / 2 ^ 8 % 256 := frameByte_toNat sr 3
  rw [t16_toNat]
  omega

/-- R51, R143: the sign is bit 23 of `sr`. -/
theorem signBit_t16 (sr : Frame) : signBit (t16 sr) = sr.getLsbD 23 := by
  rw [signBit, BitVec.getLsbD, t16_toNat_eq, Nat.testBit_mod_two_pow, Nat.testBit_div_two_pow]
  rfl

/-- R143, R144: the temperature is the 15 bits 22:8 of `sr`, negated where bit 23 is set. -/
theorem decodeTemperature_eq (sr : Frame) :
    decodeTemperature sr = BitVec.ofInt 16 (if sr.getLsbD 23 = true
      then -((sr.toNat / 2 ^ 8 % 2 ^ 15 : Nat) : Int) else ((sr.toNat / 2 ^ 8 % 2 ^ 15 : Nat) : Int)) := by
  have low15 : (magnitude (t16 sr)).toNat = sr.toNat / 2 ^ 8 % 2 ^ 15 := by
    rw [magnitude_toNat, t16_toNat_eq]
    omega
  rw [decodeTemperature, decodeTemperatureField_eq, signedMagnitude, low15, signBit_t16]

/-- R140 in plain arithmetic on `sr`. -/
theorem checkOp_eq (b : Block) :
    checkOp b =
      if (b.sr.toNat / 2 ^ 32 % 256 + b.sr.toNat / 2 ^ 24 % 256 + b.sr.toNat / 2 ^ 16 % 256
          + b.sr.toNat / 2 ^ 8 % 256) % 256 = b.sr.toNat % 256 then
        { toIdle b with
          hum := BitVec.ofNat 16 (b.sr.toNat / 2 ^ 24)
          temp := BitVec.ofInt 16 (if b.sr.getLsbD 23 = true
            then -((b.sr.toNat / 2 ^ 8 % 2 ^ 15 : Nat) : Int)
            else ((b.sr.toNat / 2 ^ 8 % 2 ^ 15 : Nat) : Int))
          err := errNone
          done := true }
      else raiseError .checksumFailed b := by
  simp only [checkOp, checksumOK_iff_digits, decodeHumidity_eq, decodeTemperature_eq]

/-- R132: a wait that leads to CHECK waits for a low. -/
theorem waitOf_level_of_next_check {p : Params} {n : BitCount} {st : St} {w : WaitFor}
    (hw : waitOf p n st = some w) (next : w.next = .check) : w.level = false := by
  cases st <;> cases hw
  case hsAck | hsFall | bitFall => rfl
  case hsRise | bitRise => cases next

/-- R131, R132: CHECK is entered only at an edge whose sample showed low. -/
theorem line_low_of_step_enters_check {s t : State} (h : step s = .next t) (elsewhere : s.st ≠ .check)
    (entered : t.st = .check) : s.pins.line = false := by
  rcases step_seen_or_sampled h (entered ▸ elsewhere.symm) (by rw [entered]; decide) with
    ⟨w, hw, level, next⟩ | ⟨_, next⟩
  · rw [level, waitOf_level_of_next_check hw (next ▸ entered)]
  · refine Bool.eq_false_iff.2 fun one => ?_
    rw [entered, (afterSample_eq_bitFall_iff _ _).2 one] at next
    cases next

/-- R25, R62: in a state of the invariant CHECK holds a full frame and no reading. -/
theorem Inv.check {s : State} (inv : Inv s) (check : s.st = .check) :
    s.bitcnt = 40#6 ∧ s.hum = 0#16 ∧ s.temp = 0#16 := by
  have isBusy : busy s.toBlock = true := (busy_iff s.toBlock).2 (by rw [check]; decide)
  obtain ⟨-, hum, temp⟩ := inv.clear (inv.pending isBusy)
  obtain ⟨least, greatest⟩ := inv.bits
  rw [check] at least greatest
  exact ⟨BitVec.eq_of_toNat_eq (Nat.le_antisymm greatest least), hum, temp⟩

/-- Settles O30: the operation is `checkOp_eq`, the outputs are CHECK's row of R32's table, and what leads
to CHECK is a wait for a low or a sample of 0. -/
theorem checkValidatesAndDecodes : Obligations.CheckValidatesAndDecodes := by
  refine ⟨rfl, fun s legal => ⟨?operation, fun check => ?outputs, Inv.check,
    fun t next elsewhere entered => ?entry⟩⟩
  case operation =>
    have registers : opBlock .check s.build s.pins s.toBlock = _ := checkOp_eq s.toBlock
    rw [exec_legal legal, registers]
    split <;> rfl
  case outputs => simp only [busy, check]; decide
  case entry =>
    have driven : lineOe t.st = true ∧ lineO t.st = true := by rw [entered]; decide
    exact ⟨line_low_of_step_enters_check next elsewhere entered, driven⟩

end Sys2Proof.Machine
end

section
/-!
Error entry, `raise E` (60_exceptions.md R161), at an exhausted wait and at a frame that CHECK does not
accept, and the obligations of the family 60_exceptions.md.
-/

namespace Sys2Proof.Machine

/-- R73: no error is reported by the code of a success. -/
theorem errCode_ne_errNone (e : ErrKind) : errCode e ≠ errNone := by
  cases e <;> decide

/-- R161: after an error entry the block is ready for a START, shows no success, and drives the line
high. -/
theorem outputs_raiseError (e : ErrKind) (b : Block) :
    busy (raiseError e b) = false ∧ okFlag (raiseError e b) = false
      ∧ lineOe (raiseError e b).st = true ∧ lineO (raiseError e b).st = true := by
  have noSuccess : okFlag (raiseError e b) = false :=
    Bool.eq_false_iff.2 fun ok => errCode_ne_errNone e ((okFlag_iff _).1 ok).2
  exact ⟨rfl, noSuccess, rfl, rfl⟩

/-- R110: a wait whose last sample does not show its level raises the wait's error. -/
theorem ownOp_exhausted {p : Params} {l : Level} {b : Block} {w : WaitFor}
    (hw : waitOf p b.bitcnt b.st = some w) (positive : 1 ≤ w.limit) (unseen : l ≠ w.level)
    (last : b.tcnt.toNat + 1 = w.limit) : ownOp p l b = raiseError w.err b := by
  rw [waitOf_own p _ w b l hw rfl, wait_eq positive, if_neg unseen, if_pos last]

/-- R140: CHECK raises ChecksumFailed at a frame that does not match its checksum. -/
theorem ownOp_check_mismatch (p : Params) (l : Level) {b : Block} (check : b.st = .check)
    (mismatch : checksumOK b.sr = false) : ownOp p l b = raiseError .checksumFailed b := by
  simp [ownOp, check, checkOp, mismatch]

/-- R161: an enabled edge without reset at which the state's own operation raises an error does the whole
error entry, line and all, whichever level `start` has. -/
theorem step_raiseError {s : State} {e : ErrKind} (legal : s.build.legal = true)
    (hrst : s.pins.rst = false) (htick : s.pins.tick = true) (busyState : s.st ≠ .idle)
    (raises : ownOp s.build s.pins.line s.toBlock = raiseError e s.toBlock) :
    ∃ t, step s = .next t ∧ t.toBlock = raiseError e s.toBlock
      ∧ busy t.toBlock = false ∧ okFlag t.toBlock = false
      ∧ lineOe t.st = true ∧ lineO t.st = true := by
  have entry : edgeBlock s = raiseError e s.toBlock :=
    (edgeBlock_own hrst htick busyState).trans raises
  refine ⟨_, step_legal legal, entry, ?_⟩
  rw [entry]
  exact outputs_raiseError e s.toBlock

/-- R62: in a state of the invariant a busy block holds no reading. -/
theorem Inv.reading_clear_of_busy {s : State} (inv : Inv s) (busyState : s.st ≠ .idle) :
    s.hum = 0#16 ∧ s.temp = 0#16 :=
  (inv.clear (inv.pending ((busy_iff s.toBlock).2 busyState))).2

/-- Settles O36: an exhausted wait and a CHECK that does not match are own operations that raise an error,
and `step_raiseError` is the edge of either. -/
theorem errorEntryReportsAndRestoresTheLine : Obligations.ErrorEntryReportsAndRestoresTheLine := by
  intro s legal hrst htick
  refine ⟨Inv.reading_clear_of_busy, fun w hw unseen last => ?exhausted, fun check mismatch => ?mismatch⟩
  case exhausted =>
    obtain ⟨positive, -, busyState, code⟩ := waitOf_limit legal hw
    rw [← code]
    exact step_raiseError legal hrst htick busyState (ownOp_exhausted hw positive unseen last)
  case mismatch =>
    exact step_raiseError legal hrst htick (by rw [check]; decide)
      (ownOp_check_mismatch _ _ check mismatch)

end Sys2Proof.Machine
end

section
/-!
RESET (70_reset_and_hazards.md R190), as an operation and as an edge, and the obligation of the family
70_reset_and_hazards.md.
-/

namespace Sys2Proof.Machine

/-- R77: a HOSTIN word is RESET's exactly where its bit 1, `rst`, is set. -/
theorem decode_hostin_eq_reset_iff (w : HostinWord) :
    decode (.hostin w) = .ok .reset ↔ w.getLsbD 1 = true := by
  cases rst : w.getLsbD 1
  case true => simp only [decode, rst, if_true]
  case false =>
    cases start : w.getLsbD 0 <;>
      simp only [decode, rst, start, Bool.false_eq_true, if_true, if_false, Except.ok.injEq, reduceCtorEq]

/-- R77: the HOSTIN words whose bit 1 is set are 10 and 11. -/
theorem getLsbD_one_iff : ∀ w : HostinWord, w.getLsbD 1 = true ↔ w = 0b10#2 ∨ w = 0b11#2 := by decide

/-- R190: an edge with `rst = 1` gives every register its reset value, whatever `tick`, `start` and the
line show. -/
theorem edgeBlock_rst {s : State} (hrst : s.pins.rst = true) : edgeBlock s = Block.reset := if_pos hrst

/-- R30 to R32: throughout the interval after a reset the line is driven high, and the block is ready for
a START and shows a cleared result. -/
theorem outputs_reset :
    outputs Block.reset = { lineOe := true, lineO := true, busy := false, done := false
                            ok := false, err := errNone, hum := 0#16, temp := 0#16 } := rfl

/-- Settles O8: RESET's words are those with bit 1 set, and the operation and an edge with `rst = 1` both
write `Block.reset`, which takes nothing from the block or the other inputs. -/
theorem resetReturnsEveryRegister : Obligations.ResetReturnsEveryRegister := by
  refine fun s legal => ⟨fun w => ?words, exec_legal legal .reset, fun hrst => ?edge⟩
  case words => rw [decode_hostin_eq_reset_iff, getLsbD_one_iff]
  case edge =>
    have reset : edgeBlock s = Block.reset := edgeBlock_rst hrst
    refine ⟨_, step_legal legal, reset, ?outputs⟩
    calc outputs (edgeBlock s) = outputs Block.reset := by rw [reset]
      _ = _ := outputs_reset

end Sys2Proof.Machine
end

section
/-!
The invariant of the block (10_state.md sections 4 and 8): one lemma for each way an edge writes the
registers, and the obligations about the reset state, the invariant and what follows from it.
-/

namespace Sys2Proof.Machine

/-! ## Waits and limits -/

/-- R24: every state's limit is positive and fits the counter. -/
theorem tickLimit_bounds {p : Params} (legal : p.legal = true) (st : St) :
    1 ≤ tickLimit p st ∧ tickLimit p st < 2 ^ 16 := by
  have := limits legal
  have := trigTicks_bounds legal
  cases st <;> simp only [tickLimit] <;> omega

/-- R24: a tick count that has room counts up without wrapping. -/
theorem tcnt_succ (n : TickCount) (room : n.toNat + 1 < 2 ^ 16) : (n + 1#16).toNat = n.toNat + 1 := by
  rw [BitVec.toNat_add, BitVec.toNat_ofNat]
  omega

/-- R24, R110: the limit of a waiting state is the limit of its wait. -/
theorem waitOf_limit_eq_tickLimit {p : Params} {n : BitCount} {st : St} {w : WaitFor}
    (hw : waitOf p n st = some w) : w.limit = tickLimit p st := by
  cases st <;> cases hw <;> rfl

/-- R23, R116: a wait leads to a used code, and without a high phase not to a state of that phase. -/
theorem waitOf_next_allowed {p : Params} {n : BitCount} {st : St} {w : WaitFor}
    (hw : waitOf p n st = some w) (phase : p.ackHighPhase = 0 → st ≠ .hsRise) :
    usedCode w.next = true
      ∧ (p.ackHighPhase = 0 → w.next ≠ .hsRise ∧ w.next ≠ .hsFall) := by
  cases st <;> cases hw
  case hsAck => by_cases high : p.ackHighPhase = 1 <;> simp [high, usedCode, stBits]
  case hsRise => simpa [usedCode, stBits] using phase
  case hsFall | bitRise => simp [usedCode, stBits]
  case bitFall => by_cases all : n.toNat = 40 <;> simp [all, usedCode, stBits]

/-- R25: the bit count of a waiting state lies in the range of the state its wait leads to. -/
theorem waitOf_next_bitRange {p : Params} {n : BitCount} {st : St} {w : WaitFor}
    (hw : waitOf p n st = some w) (bits : (bitRange st).1 ≤ n.toNat ∧ n.toNat ≤ (bitRange st).2) :
    (bitRange w.next).1 ≤ n.toNat ∧ n.toNat ≤ (bitRange w.next).2 := by
  cases st <;> cases hw <;> simp only [bitRange] at bits ⊢
  case hsAck => by_cases high : p.ackHighPhase = 1 <;> simp only [high, if_true, if_false] <;> omega
  case hsRise => exact bits
  case hsFall => omega
  case bitRise => exact bits
  case bitFall => by_cases all : n.toNat = 40 <;> simp only [all, if_true, if_false] <;> omega

/-- R25, R131: the count that the sample of a bit leaves lies in the range of the state after it. -/
theorem afterSample_bitRange (l : Level) {n : BitCount} (room : n.toNat ≤ 39) :
    (bitRange (afterSample l n)).1 ≤ n.toNat + 1 ∧ n.toNat + 1 ≤ (bitRange (afterSample l n)).2 := by
  unfold afterSample
  split_ifs with one last
  · exact ⟨Nat.le_add_left 1 _, Nat.succ_le_succ room⟩
  · simp only [bitRange, last, Config.frameBits]; omega
  · simp only [bitRange, Config.frameBits] at last ⊢; omega

/-- R131: the sample of a bit leads to one of three states, all used codes past the handshake. -/
theorem afterSample_mem (l : Level) (n : BitCount) :
    afterSample l n ∈ [St.bitFall, .check, .bitRise] := by
  unfold afterSample
  split_ifs <;> simp

/-- R131: the sample of a bit does not end the read. -/
theorem afterSample_ne_idle (l : Level) (n : BitCount) : afterSample l n ≠ .idle := by
  intro idle
  have after := afterSample_mem l n
  rw [idle] at after
  exact absurd after (by decide)

/-- R131: the bit sampled is the low end of the frame. -/
theorem shiftIn_getLsbD_zero (sr : Frame) (l : Level) : (shiftIn sr l).getLsbD 0 = l := by
  simp [shiftIn]

/-! ## The invariant under a write of the registers -/

/-- The invariant speaks of the build and the registers alone. -/
theorem Inv.congr {s t : State} (inv : Inv s) (build : t.build = s.build)
    (block : t.toBlock = s.toBlock) : Inv t := by
  obtain ⟨b, p, sched, edge⟩ := t
  cases build
  cases block
  exact ⟨inv.built, inv.used, inv.phase, inv.ticks, inv.bits, inv.frame, inv.fall, inv.pending,
    inv.clear, inv.failed, inv.range⟩

/-- In IDLE with a clear datapath, the invariant is what it says of the result registers. -/
theorem inv_of_idle {s : State} (built : s.build.legal = true) (idle : s.st = .idle)
    (ticks : s.tcnt = 0#16) (bits : s.bitcnt = 0#6) (frame : s.sr = 0#40)
    (clear : s.done = false → s.err = 0b00#2 ∧ s.hum = 0#16 ∧ s.temp = 0#16)
    (failed : s.err ≠ 0b00#2 → s.hum = 0#16 ∧ s.temp = 0#16) (range : s.temp ≠ 0x8000#16) : Inv s where
  built := built
  used := by rw [idle]; rfl
  phase _ := by rw [idle]; decide
  ticks := by rw [idle, ticks]; exact Nat.one_pos
  bits := by rw [idle, bits]; decide
  frame := by rw [bits, frame]; decide
  fall h := by rw [idle] at h; cases h
  pending h := absurd idle ((busy_iff _).1 h)
  clear := clear
  failed := failed
  range := range

/-- R38: the reset values are a state of the invariant, in every legal build. -/
theorem inv_reset {s : State} (built : s.build.legal = true) (block : s.toBlock = Block.reset) :
    Inv s := by
  refine inv_of_idle built ?_ ?_ ?_ ?_ (fun _ => ?_) (fun _ => ?_) ?_ <;> rw [block] <;> decide

/-- R100: an accepted START makes a state of the invariant out of any registers. -/
theorem inv_acceptStart {s : State} {b : Block} (built : s.build.legal = true)
    (block : s.toBlock = acceptStart b) : Inv s where
  built := built
  used := by rw [block]; rfl
  phase _ := by rw [block]; exact ⟨nofun, nofun⟩
  ticks := by
    obtain ⟨positive, -⟩ := trigTicks_bounds built
    rw [block]
    exact positive
  bits := by rw [block]; exact ⟨Nat.le_refl 0, Nat.le_refl 0⟩
  frame := by rw [block]; exact Nat.one_pos
  fall h := by rw [block] at h; cases h
  pending _ := by rw [block]; rfl
  clear _ := by rw [block]; exact ⟨rfl, rfl, rfl⟩
  failed _ := by rw [block]; exact ⟨rfl, rfl⟩
  range := by rw [block]; exact nofun

/-- R24: a transition between two states of a read keeps the invariant, where the state entered is
allowed and its range holds the bit count; BIT_FALL is entered by the sample of a bit alone. -/
theorem inv_enter {s : State} (inv : Inv s) (busyState : s.st ≠ .idle) {n : St}
    (used : usedCode n = true)
    (phase : s.build.ackHighPhase = 0 → n ≠ .hsRise ∧ n ≠ .hsFall)
    (bits : (bitRange n).1 ≤ s.bitcnt.toNat ∧ s.bitcnt.toNat ≤ (bitRange n).2) (notFall : n ≠ .bitFall) :
    Inv { s with toBlock := enter n s.toBlock } where
  built := inv.built
  used := used
  phase := phase
  ticks := (tickLimit_bounds inv.built n).1
  bits := bits
  frame := inv.frame
  fall h := absurd h notFall
  pending _ := inv.pending ((busy_iff _).2 busyState)
  clear := inv.clear
  failed := inv.failed
  range := inv.range

/-- R24: counting a tick below the last one keeps the invariant. -/
theorem inv_countTick {s : State} (inv : Inv s) (below : s.tcnt.toNat + 1 < tickLimit s.build s.st) :
    Inv { s with toBlock := countTick s.toBlock } where
  built := inv.built
  used := inv.used
  phase := inv.phase
  ticks := by
    obtain ⟨-, fits⟩ := tickLimit_bounds inv.built s.st
    exact (tcnt_succ s.tcnt (by omega)).symm ▸ below
  bits := inv.bits
  frame := inv.frame
  fall := inv.fall
  pending := inv.pending
  clear := inv.clear
  failed := inv.failed
  range := inv.range

/-- R131: the sample of a bit keeps the invariant. -/
theorem inv_sampleBit {s : State} (inv : Inv s) (dly : s.st = .bitDly) (l : Level) :
    Inv { s with toBlock := sampleBit l s.toBlock } := by
  have room : s.bitcnt.toNat ≤ 39 := by
    obtain ⟨-, most⟩ := inv.bits
    rwa [dly] at most
  have counted : (s.bitcnt + 1#6).toNat = s.bitcnt.toNat + 1 := bitcnt_succ _ room
  have after := afterSample_mem l s.bitcnt
  exact
    { built := inv.built
      used := by
        show usedCode (afterSample l s.bitcnt) = true
        simp only [List.mem_cons, List.not_mem_nil, or_false] at after
        rcases after with h | h | h <;> rw [h] <;> rfl
      phase := fun _ => by
        show afterSample l s.bitcnt ≠ .hsRise ∧ afterSample l s.bitcnt ≠ .hsFall
        constructor <;> intro h <;> rw [h] at after <;> exact absurd after (by decide)
      ticks := (tickLimit_bounds inv.built _).1
      bits := counted.symm ▸ afterSample_bitRange l room
      frame := counted.symm ▸ shiftIn_lt _ l _ inv.frame
      fall := fun h => (shiftIn_getLsbD_zero _ l).trans ((afterSample_eq_bitFall_iff l _).1 h)
      pending := fun _ => inv.pending ((busy_iff _).2 (by rw [dly]; decide))
      clear := inv.clear
      failed := inv.failed
      range := inv.range }

/-- R161: an error entry from a state of a read keeps the invariant: such a state holds no reading. -/
theorem inv_raiseError {s : State} (inv : Inv s) (busyState : s.st ≠ .idle) (e : ErrKind) :
    Inv { s with toBlock := raiseError e s.toBlock } :=
  inv_of_idle inv.built rfl rfl rfl rfl (fun pending => nomatch pending)
    (fun _ => inv.reading_clear_of_busy busyState) inv.range

/-- R144: a decoded temperature is never -32768. -/
theorem decodeTemperature_ne_least (sr : Frame) : decodeTemperature sr ≠ 0x8000#16 := by
  obtain ⟨-, -, -, range⟩ := temperatureIsSignAndMagnitude sr
  exact range

/-- R60: a state's own operation keeps the invariant. -/
theorem inv_own {s : State} (inv : Inv s) {l : Level} {b : Block} (own : Own s.build l s.toBlock b) :
    Inv { s with toBlock := b } := by
  have below := inv.ticks
  cases own with
  | idle => exact inv
  | trigEnd trig =>
    have bits := inv.bits
    rw [trig] at bits
    exact inv_enter inv (by rw [trig]; decide) rfl (fun _ => by decide) bits (by decide)
  | rel rel =>
    have bits := inv.bits
    rw [rel] at bits
    exact inv_enter inv (by rw [rel]; decide) rfl (fun _ => by decide) bits (by decide)
  | seen w hw =>
    obtain ⟨used, phase⟩ := waitOf_next_allowed hw fun none => (inv.phase none).1
    exact inv_enter inv (waitOf_ne_idle hw) used phase (waitOf_next_bitRange hw inv.bits)
      (waitOf_next_ne_bitFall hw)
  | trigCount trig notLast =>
    rw [trig, tickLimit] at below
    refine inv_countTick inv ?_
    rw [trig, tickLimit]
    omega
  | waiting w hw _ notLast =>
    have limit := waitOf_limit_eq_tickLimit hw
    exact inv_countTick inv (by omega)
  | delay dly notLast =>
    rw [dly, tickLimit] at below
    refine inv_countTick inv ?_
    rw [dly, tickLimit]
    omega
  | sample dly => exact inv_sampleBit inv dly l
  | exhausted w hw => exact inv_raiseError inv (waitOf_ne_idle hw) w.err
  | invalid check => exact inv_raiseError inv (by rw [check]; decide) .checksumFailed
  | valid =>
    exact inv_of_idle inv.built rfl rfl rfl rfl (fun pending => nomatch pending)
      (fun failed => absurd rfl failed) (decodeTemperature_ne_least s.sr)
  | unused unused =>
    have used := of_decide_eq_true inv.used
    omega

/-- R36: an edge keeps the invariant. -/
theorem inv_edge {s : State} (inv : Inv s) : Inv { s with toBlock := edgeBlock s } := by
  rcases edgeBlock_cases s with ⟨_, e⟩ | ⟨_, _, e⟩ | ⟨_, e⟩ | ⟨_, e⟩
  · exact inv_reset inv.built e
  · exact inv_acceptStart inv.built e
  · exact inv.congr rfl e
  · exact (inv_own inv (own_ownOp s.build s.pins.line s.toBlock)).congr rfl e

/-- Settles O12: an edge resets, accepts a START, changes nothing or performs the state's own operation,
and each of the four keeps the invariant. -/
theorem everyStepKeepsTheInvariant : Obligations.EveryStepKeepsTheInvariant := by
  intro s t inv next
  obtain ⟨_, rfl⟩ := step_next next
  exact (inv_edge inv).congr rfl rfl

/-! ## Reset and the invariant -/

/-- Settles O9: the registers by definition, the ports by `outputs_reset`. -/
theorem resetStateHoldsTheListedValues : Obligations.ResetStateHoldsTheListedValues :=
  ⟨rfl, outputs_reset⟩

/-- Settles O10: a reset edge writes the reset values. -/
theorem oneResetEdgeEstablishesTheInvariant : Obligations.OneResetEdgeEstablishesTheInvariant :=
  fun _ legal hrst => ⟨_, step_legal legal, inv_reset legal (edgeBlock_rst hrst)⟩

/-- Settles O11: the reset state holds the reset values in a legal build. -/
theorem resetStateMeetsTheInvariant : Obligations.ResetStateMeetsTheInvariant :=
  inv_reset (by decide) rfl

/-- Settles O46: `pending` and `clear` for a busy block, `failed` for a failed read, and the definition of
a reading, whose registers the block holds exactly outside a read. -/
theorem noResultWhileBusyOrFailed : Obligations.NoResultWhileBusyOrFailed := by
  refine fun s inv => ⟨fun busyBlock => ?busy, fun completed notOk => ?failed, ?reading⟩
  case busy => exact ⟨inv.pending busyBlock, inv.clear (inv.pending busyBlock)⟩
  case failed =>
    refine inv.failed fun success => ?_
    rw [(okFlag_iff s.toBlock).2 ⟨completed, success⟩] at notOk
    cases notOk
  case reading =>
    rw [resultValid, Bool.and_eq_true, okFlag_iff, Bool.not_eq_true']
    exact and_left_comm

end Sys2Proof.Machine
end

section
/-!
The encodings of 30_encoding.md against the rows of opcode_table.json, and the obligations about them.
-/

namespace Sys2Proof.Machine

/-- R71: an ST word, whose four bits a row fixes all, is decoded to the operation of the row it is of. -/
theorem decode_st_iff (w : StWord) (i : Instr) :
    decode (.st w) = .ok i ↔ (opRow i).covers (.st w) = true := by
  cases i <;> revert w <;> decide

/-- R77: a HOSTIN word is decoded to the operation of the row it is of, if it is of one. -/
theorem decode_hostin_iff (w : HostinWord) (i : Instr) :
    decode (.hostin w) = .ok i ↔ (opRow i).covers (.hostin w) = true := by
  cases i <;> revert w <;> decide

/-- Settles O1: the two formats apart. -/
theorem decodingFollowsTheOpcodeTable : Obligations.DecodingFollowsTheOpcodeTable
  | .st w, i => decode_st_iff w i
  | .hostin w, i => decode_hostin_iff w i

/-- R70, R77: the word written for an operation decodes to it. -/
theorem decode_encode (i : Instr) : decode (encode i) = .ok i := by
  cases i <;> rfl

/-- Settles O2: the encoder's word is of the row because it decodes to the row's operation. -/
theorem decodeOfEncodeIsTheOperation : Obligations.DecodeOfEncodeIsTheOperation := fun i =>
  ⟨decode_encode i, (decodingFollowsTheOpcodeTable (encode i) i).1 (decode_encode i)⟩

/-- Settles O3: the words that are an operation's own by `decode_encode`, 11 as the second word of RESET,
and 00, of no row. -/
theorem writtenOutWordsDecode : Obligations.WrittenOutWordsDecode :=
  ⟨decode_encode .hsAck, decode_encode .bitDly, decode_encode .check, decode_encode .illC,
    decode_encode .start, decode_encode .reset, (decode_hostin_eq_reset_iff 0b11#2).2 rfl, rfl⟩

end Sys2Proof.Machine
end

section
/-!
One edge (00_scope.md R11, R13): what it selects, that it completes, what it reads and what it does not,
and the obligations about these.
-/

namespace Sys2Proof.Machine

/-! ## Selection and completion -/

/-- R13: an edge with `tick = 1` or `rst = 1` selects an operation. -/
theorem selected_of_enabled {s : State} (enabled : s.pins.rst = true ∨ s.pins.tick = true) :
    s.selected = some (opAt (hostinWord s.pins.rst s.pins.start) s.st) :=
  if_pos (Bool.or_eq_true_iff.2 enabled)

/-- R13: an edge with `tick = 0` and `rst = 0` changes no register. -/
theorem edgeBlock_disabled {s : State} (hrst : s.pins.rst = false) (htick : s.pins.tick = false) :
    edgeBlock s = s.toBlock := by
  simp [edgeBlock, hrst, htick]

/-- Settles O5: the selection by `selected_of_enabled`, the disabled edge by `edgeBlock_disabled`. -/
theorem stepRunsTheSelectedOperation : Obligations.StepRunsTheSelectedOperation := by
  refine fun s => ⟨fun t enabled performed => ?enabled, fun legal hrst htick => ?disabled⟩
  case enabled =>
    simp only [step, selected_of_enabled enabled, performed]
    rfl
  case disabled =>
    rw [step_legal legal, edgeBlock_disabled hrst htick]
    rfl

/-- R9: a build is legal exactly where each parameter lies in its range. -/
theorem legal_iff (p : Params) :
    p.legal = true ↔ (18 ≤ p.triggerLowMs ∧ p.triggerLowMs ≤ 65)
      ∧ (1 ≤ p.hsTimeoutUs ∧ p.hsTimeoutUs ≤ 65535)
      ∧ (1 ≤ p.edgeTimeoutUs ∧ p.edgeTimeoutUs ≤ 65535)
      ∧ (1 ≤ p.sampleDelayUs ∧ p.sampleDelayUs ≤ 65535)
      ∧ (p.ackHighPhase = 0 ∨ p.ackHighPhase = 1) := by
  simp only [Params.legal, Bool.and_eq_true, decide_eq_true_eq]
  omega

/-- R11: no step of an illegal build has a meaning. -/
theorem step_illegal {s : State} (illegal : s.build.legal = false) :
    step s = .refused .illegalBuild := by
  simp [step_eq, illegal]

/-- Settles O6: every operation is `clocked`, which refuses an illegal build, and so does a step. -/
theorem illegalBuildIsRefused : Obligations.IllegalBuildIsRefused := fun s =>
  ⟨legal_iff s.build, fun illegal =>
    ⟨fun i => (exec_eq_clocked i s).trans (clocked_illegal illegal _), step_illegal illegal⟩⟩

/-- Settles O7: operation and edge each write registers alone, and the edge moves the inputs on. -/
theorem everyOperationCompletes : Obligations.EveryOperationCompletes := fun _ legal =>
  ⟨fun i => ⟨_, exec_legal legal i, rfl, rfl, rfl⟩, _, step_legal legal, rfl, rfl, rfl⟩

/-- R13: an edge of a legal build writes what `edgeBlock` says and takes one input. -/
theorem exists_step {s : State} (legal : s.build.legal = true) :
    ∃ t, step s = .next t ∧ t.build = s.build ∧ (∀ j, t.pinsAt j = s.pinsAt (1 + j))
      ∧ t.toBlock = edgeBlock s := by
  have next := step_legal legal
  obtain ⟨build, pins⟩ := edges_pinsAt (edges_succ next 0)
  exact ⟨_, next, build, pins, rfl⟩

/-! ## What an edge does not read -/

/-- R13: a step with given inputs at its edge. -/
theorem step_withPins {s : State} (legal : s.build.legal = true) (x : Pins) :
    step (s.withPins x) = .next { s.advance with toBlock := edgeBlock (s.withPins x) } :=
  step_legal legal

/-- Settles O14: exec of START outside IDLE is `ownOp`, and so is the edge with either level of
`start`. -/
theorem startWhileBusyIsIgnored : Obligations.StartWhileBusyIsIgnored := by
  refine fun s legal busyState => ⟨?exec, fun hrst htick => ?step⟩
  case exec =>
    have ignored : opBlock .start s.build s.pins s.toBlock = ownOp s.build s.pins.line s.toBlock :=
      if_neg busyState
    rw [exec_legal legal, ignored, exec_opOf legal fun _ => busyState]
  case step =>
    have own (start : Bool) : edgeBlock (s.withPins { s.pins with start := start })
        = ownOp s.build s.pins.line s.toBlock :=
      edgeBlock_own (s := s.withPins { s.pins with start := start }) hrst htick busyState
    refine ⟨_, step_withPins legal _, ?_⟩
    rw [step_withPins legal, own, own]

/-- Settles O16: an accepted START writes all eight registers. -/
theorem readDoesNotDependOnEarlierResults : Obligations.ReadDoesNotDependOnEarlierResults := by
  intro s b legal accepts idle
  have accepted : edgeBlock s = acceptStart s.toBlock := edgeBlock_accepts accepts
  have acceptedToo : edgeBlock { s with toBlock := b } = acceptStart b :=
    edgeBlock_accepts ⟨idle, accepts.2⟩
  refine ⟨_, step_legal legal, (step_legal (s := { s with toBlock := b }) legal).trans ?_⟩
  rw [accepted, acceptedToo]
  rfl

/-- R32, R56: the own operation of a state that drives the line does not read it. -/
theorem ownOp_of_driven (p : Params) {b : Block} (driven : lineOe b.st = true) (l l' : Level) :
    ownOp p l b = ownOp p l' b := by
  cases h : b.st <;> rw [h] at driven
  case hsAck | hsRise | hsFall | bitRise | bitDly | bitFall => cases driven
  all_goals simp only [ownOp, h]

/-- Settles O48: of what an edge can do, only the state's own operation reads the line. -/
theorem lineIsNotReadWhileDriven : Obligations.LineIsNotReadWhileDriven := by
  intro s legal driven
  have same : edgeBlock (s.withPins { s.pins with line := false })
      = edgeBlock (s.withPins { s.pins with line := true }) := by
    simp only [edgeBlock, State.withPins_pins, State.withPins_toBlock, State.withPins_build,
      ownOp_of_driven s.build driven false true]
    rfl
  refine ⟨_, step_withPins legal _, ?_⟩
  rw [step_withPins legal, same]

/-- Settles O49: `edgeBlock` takes the build, the registers and the inputs of the coming edge. -/
theorem blockSharesNoState : Obligations.BlockSharesNoState := by
  intro s s' legal build block pins
  refine ⟨_, _, step_legal legal, step_legal (build ▸ legal), ?_⟩
  show edgeBlock s' = edgeBlock s
  rw [edgeBlock, build, block, pins, edgeBlock]

/-! ## Edges that change nothing -/

/-- Settles O50: each edge of the run is a disabled one. -/
theorem stoppedTickFreezesTheBlock : Obligations.StoppedTickFreezesTheBlock := by
  refine fun n s legal stopped => edges_hold legal n fun j hj t pins _ => ?_
  obtain ⟨hrst, htick⟩ := stopped j hj
  exact edgeBlock_disabled (pins ▸ hrst) (pins ▸ htick)

/-- R112: in IDLE an edge without reset and without a START at an enabled edge changes no register. -/
theorem edgeBlock_idle_quiet {s : State} (idle : s.st = .idle) (hrst : s.pins.rst = false)
    (quiet : s.pins.tick = false ∨ s.pins.start = false) : edgeBlock s = s.toBlock := by
  rcases quiet with htick | hstart
  · exact edgeBlock_disabled hrst htick
  · simp [edgeBlock, hrst, hstart, ownOp, idle, idleOp]

/-- Settles O51: each edge of the run is a quiet one in IDLE. -/
theorem resultsHoldUntilStartOrReset : Obligations.ResultsHoldUntilStartOrReset := by
  refine fun n s legal idle quiet => edges_hold legal n fun j hj t pins block => ?_
  obtain ⟨hrst, noStart⟩ := quiet j hj
  exact edgeBlock_idle_quiet (by rw [block]; exact idle) (pins ▸ hrst) (pins ▸ noStart)

/-! ## Priorities -/

/-- R110: a wait that sees its level goes on to its next state, whatever `tcnt` is. -/
theorem ownOp_seen {p : Params} {l : Level} {b : Block} {w : WaitFor}
    (hw : waitOf p b.bitcnt b.st = some w) (seen : l = w.level) : ownOp p l b = enter w.next b := by
  rw [waitOf_own p _ w b l hw rfl, wait, if_pos seen]

/-- R140: CHECK completes the read, whichever way it judges the frame. -/
theorem checkOp_completes (b : Block) : (checkOp b).st = .idle ∧ (checkOp b).done = true := by
  unfold checkOp
  split <;> exact ⟨rfl, rfl⟩

/-- Settles O38: a reset edge reads nothing else; a wait asks for its level before it asks for its last
sample; CHECK is a state of a read, where `start` is not read. -/
theorem simultaneousEventsHaveAPriority : Obligations.SimultaneousEventsHaveAPriority := by
  refine fun s legal => ⟨fun hrst => ?reset, fun w hrst htick hw seen => ?edge,
    fun check hrst htick _ => ?completion⟩
  case reset =>
    have reset : edgeBlock s = Block.reset := edgeBlock_rst hrst
    exact ⟨_, step_legal legal, by rw [reset]; exact ⟨rfl, rfl, rfl⟩⟩
  case edge =>
    exact ⟨_, step_legal legal,
      (edgeBlock_own hrst htick (waitOf_ne_idle hw)).trans (ownOp_seen hw seen)⟩
  case completion =>
    have own : edgeBlock s = checkOp s.toBlock := by
      rw [edgeBlock_own hrst htick (by rw [check]; decide)]
      simp only [ownOp, check]
    exact ⟨_, step_legal legal, by rw [own]; exact checkOp_completes s.toBlock⟩

end Sys2Proof.Machine
end

section
/-!
What a step can change and where (10_state.md section 4, 20_memory.md sections 1, 4 and 6, 60_exceptions.md
R160), and the obligations about it: each is one question put to every way a step can go.
-/

namespace Sys2Proof.Machine

/-- R13, R77: a step is a reset, an accepted START, an edge that changes no register, or the state's own
operation. -/
theorem step_cases {s t : State} (h : step s = .next t) :
    (s.pins.rst = true ∧ t.toBlock = Block.reset)
      ∨ (Accepts s ∧ t.toBlock = acceptStart s.toBlock)
      ∨ t.toBlock = s.toBlock
      ∨ Own s.build s.pins.line s.toBlock t.toBlock := by
  rw [step_toBlock h]
  rcases edgeBlock_cases s with ⟨hrst, e⟩ | ⟨_, accepts, e⟩ | ⟨_, e⟩ | ⟨_, e⟩ <;> rw [e]
  · exact .inl ⟨hrst, rfl⟩
  · exact .inr (.inl ⟨accepts, rfl⟩)
  · exact .inr (.inr (.inl rfl))
  · exact .inr (.inr (.inr (own_ownOp _ _ _)))

/-! ## The order of states -/

/-- Settles O47: `step_st_mem_successors`. -/
theorem statesFollowTheOrderOfARead : Obligations.StatesFollowTheOrderOfARead :=
  fun _ _ => step_st_mem_successors

/-- R132: the wait that leads to CHECK is that for the fall of the 40th bit. -/
theorem waitOf_of_next_check {p : Params} {n : BitCount} {st : St} {w : WaitFor}
    (hw : waitOf p n st = some w) (next : w.next = .check) : st = .bitFall ∧ n.toNat = 40 := by
  cases st <;> cases hw
  case bitFall => exact ⟨rfl, by_contra fun more => by simp [more] at next⟩
  case hsAck => by_cases high : p.ackHighPhase = 1 <;> simp [high] at next
  case hsRise | hsFall | bitRise => cases next

/-- R134: an own operation that enters CHECK has all 40 bits in, and is the last bit's sample or the wait
for its fall. -/
theorem Own.enters_check {p : Params} {l : Level} {b b' : Block} (own : Own p l b b')
    (elsewhere : b.st ≠ .check) (entered : b'.st = .check) :
    b'.bitcnt = 40#6 ∧ (b.st = .bitDly ∨ b.st = .bitFall) := by
  cases own with
  | idle | trigCount | waiting | delay => exact absurd entered elsewhere
  | trigEnd | rel | exhausted | valid | invalid | unused => cases entered
  | seen w hw =>
    obtain ⟨fall, all⟩ := waitOf_of_next_check hw entered
    exact ⟨BitVec.eq_of_toNat_eq all, .inr fall⟩
  | sample dly =>
    have last : b.bitcnt.toNat + 1 = 40 := by
      have next : afterSample l b.bitcnt = .check := entered
      unfold afterSample at next
      split_ifs at next with _ last
      exact last
    have counted : (b.bitcnt + 1#6).toNat = 40 := (bitcnt_succ _ (by omega)).trans last
    exact ⟨BitVec.eq_of_toNat_eq counted, .inl dly⟩

/-- Settles O29: the count and the state left by `Own.enters_check`, the sample by
`line_low_of_step_enters_check`, the outputs by R32's table. -/
theorem checkSeesAFullFrame : Obligations.CheckSeesAFullFrame := by
  intro s t next elsewhere entered
  have full : t.bitcnt = 40#6 ∧ (s.st = .bitDly ∨ s.st = .bitFall) := by
    rcases step_cases next with ⟨_, e⟩ | ⟨_, e⟩ | e | own
    · rw [e] at entered; cases entered
    · rw [e] at entered; cases entered
    · exact absurd (e ▸ entered) elsewhere
    · exact own.enters_check elsewhere entered
  obtain ⟨bits, left⟩ := full
  exact ⟨bits, left, line_low_of_step_enters_check next elsewhere entered, by rw [entered]; decide⟩

/-- R110: no wait that sees its level ends the read. -/
theorem waitOf_next_ne_idle {p : Params} {n : BitCount} {st : St} {w : WaitFor}
    (hw : waitOf p n st = some w) : w.next ≠ .idle := by
  cases st <;> cases hw <;> dsimp only
  case hsAck | bitFall => split_ifs <;> decide
  case hsRise | hsFall | bitRise => decide

/-- R164: an own operation goes back to IDLE with an outcome, or from an unused code. -/
theorem Own.enters_idle {p : Params} {l : Level} {b b' : Block} (own : Own p l b b')
    (busyState : b.st ≠ .idle) (entered : b'.st = .idle) :
    b'.done = true ∨ 0xA ≤ (stBits b.st).toNat := by
  cases own with
  | idle | trigCount | waiting | delay => exact absurd entered busyState
  | trigEnd | rel => cases entered
  | exhausted | valid | invalid => exact .inl rfl
  | unused unused => exact .inr unused
  | seen w hw => exact absurd entered (waitOf_next_ne_idle hw)
  | sample => exact absurd entered (afterSample_ne_idle l b.bitcnt)

/-- R112: the own operation of IDLE changes nothing. -/
theorem Own.eq_of_idle {p : Params} {l : Level} {b b' : Block} (own : Own p l b b')
    (idle : b.st = .idle) : b' = b := by
  cases own with
  | idle => rfl
  | trigEnd h | trigCount h | rel h | delay h | sample h | valid h | invalid h =>
    exact nomatch idle.symm.trans h
  | seen w hw | exhausted w hw | waiting w hw => exact absurd idle (waitOf_ne_idle hw)
  | unused h => rw [idle] at h; exact absurd h (by decide)

/-- Settles O45: an own operation stays in IDLE, and `Own.enters_idle` says what brings it there. -/
theorem onlyAStartLeavesIdle : Obligations.OnlyAStartLeavesIdle := by
  intro s t next
  rcases step_cases next with ⟨hrst, e⟩ | ⟨accepts, e⟩ | e | own
  · exact ⟨fun _ left => absurd (by rw [e]; rfl) left, fun _ _ => .inl hrst⟩
  · exact ⟨fun _ _ => ⟨accepts, by rw [e]; rfl⟩, fun busyState => absurd accepts.1 busyState⟩
  · rw [e]
    exact ⟨fun idle left => absurd idle left, fun busyState idle => absurd idle busyState⟩
  · exact ⟨fun idle left => absurd (own.eq_of_idle idle ▸ idle) left,
      fun busyState entered => .inr (own.enters_idle busyState entered)⟩

/-! ## The frame and the result registers -/

/-- R33, R50: an own operation keeps the frame and its count, is the sample of a bit, or clears both on
the way to IDLE. -/
theorem Own.frame_cases {p : Params} {l : Level} {b b' : Block} (own : Own p l b b') :
    (b'.sr = b.sr ∧ b'.bitcnt = b.bitcnt)
      ∨ (b.st = .bitDly ∧ b.tcnt.toNat = p.sampleDelayUs - 1 ∧ b'.bitcnt = b.bitcnt + 1#6)
      ∨ (b'.st = .idle ∧ b'.sr = 0#40 ∧ b'.bitcnt = 0#6) := by
  cases own with
  | idle | trigEnd | trigCount | rel | seen | waiting | delay => exact .inl ⟨rfl, rfl⟩
  | sample dly last => exact .inr (.inl ⟨dly, last, rfl⟩)
  | exhausted | valid | invalid | unused => exact .inr (.inr ⟨rfl, rfl, rfl⟩)

/-- Settles O44: `Own.frame_cases`, and the clears of reset and of an accepted START. -/
theorem onlyTheSampleShiftsTheFrame : Obligations.OnlyTheSampleShiftsTheFrame := by
  intro s t next changed
  rcases step_cases next with ⟨_, e⟩ | ⟨accepts, e⟩ | e | own
  · rw [e]; exact .inr ⟨.inl rfl, rfl, rfl⟩
  · rw [e]; exact .inr ⟨.inr accepts, rfl, rfl⟩
  · rw [e] at changed
    exact absurd changed (not_or.2 ⟨not_not.2 rfl, not_not.2 rfl⟩)
  · obtain ⟨legal, -⟩ := step_next next
    obtain ⟨-, -, -, -, -, -, positive, -⟩ := limits legal
    rcases own.frame_cases with ⟨sr, bits⟩ | ⟨dly, last, counted⟩ | ⟨idle, sr, bits⟩
    · exact absurd changed (not_or.2 ⟨not_not.2 sr, not_not.2 bits⟩)
    · exact .inl ⟨dly, by omega, counted⟩
    · exact .inr ⟨.inl idle, sr, bits⟩

/-- R57: an own operation keeps the result registers or completes a read. -/
theorem Own.results_cases {p : Params} {l : Level} {b b' : Block} (own : Own p l b b') :
    (b'.done = b.done ∧ b'.err = b.err ∧ b'.hum = b.hum ∧ b'.temp = b.temp)
      ∨ (b.st ≠ .idle ∧ b'.st = .idle ∧ b'.done = true) := by
  cases own with
  | idle | trigEnd | trigCount | rel | seen | waiting | delay | sample | unused =>
    exact .inl ⟨rfl, rfl, rfl, rfl⟩
  | exhausted w hw => exact .inr ⟨waitOf_ne_idle hw, rfl, rfl⟩
  | valid check | invalid check => exact .inr ⟨by rw [check]; decide, rfl, rfl⟩

/-- Settles O42: `Own.results_cases`, and the clears of an accepted START. -/
theorem resultRegistersChangeTogether : Obligations.ResultRegistersChangeTogether := by
  intro s t next noReset changed
  rcases step_cases next with ⟨hrst, _⟩ | ⟨accepts, e⟩ | e | own
  · rw [hrst] at noReset; cases noReset
  · rw [e]; exact .inl ⟨accepts, rfl, rfl, rfl, rfl⟩
  · rw [e] at changed
    simp at changed
  · rcases own.results_cases with ⟨done, err, hum, temp⟩ | ⟨busyState, idle, done⟩
    · rw [done, err, hum, temp] at changed
      simp at changed
    · exact .inr ⟨(busy_iff _).2 busyState, by rw [busy, idle]; rfl, done⟩

/-- R28, R29: an own operation keeps the reading or is a CHECK that accepts the frame. -/
theorem Own.reading_cases {p : Params} {l : Level} {b b' : Block} (own : Own p l b b') :
    (b'.hum = b.hum ∧ b'.temp = b.temp)
      ∨ (b.st = .check ∧ checksumOK b.sr = true ∧ b'.done = true ∧ b'.err = errNone) := by
  cases own with
  | valid check passes => exact .inr ⟨check, passes, rfl, rfl⟩
  | idle | trigEnd | trigCount | rel | seen | exhausted | waiting | delay | sample | invalid | unused =>
    exact .inl ⟨rfl, rfl⟩

/-- Settles O43: `Own.reading_cases`, and the clears of reset and of an accepted START. -/
theorem onlyASuccessfulCheckWritesAReading : Obligations.OnlyASuccessfulCheckWritesAReading := by
  intro s t next changed
  rcases step_cases next with ⟨hrst, _⟩ | ⟨accepts, e⟩ | e | own
  · exact .inl hrst
  · rw [e]; exact .inr (.inl ⟨accepts, rfl, rfl⟩)
  · rw [e] at changed
    simp at changed
  · rcases own.reading_cases with ⟨hum, temp⟩ | written
    · rw [hum, temp] at changed
      simp at changed
    · exact .inr (.inr written)

/-! ## Unfinished operations -/

/-- R110: a wait that does not end in IDLE writes `st` and `tcnt` alone. -/
theorem wait_frame {level line : Level} {limit : Nat} {next : St} {e : ErrKind} {b : Block}
    (goesOn : (wait level limit next e line b).st ≠ .idle) :
    ∃ st n, wait level limit next e line b = { b with st := st, tcnt := n } := by
  rcases wait_cases level limit next e line b with ⟨_, h⟩ | ⟨_, _, h⟩ | ⟨_, _, h⟩ <;>
    rw [h] at goesOn ⊢
  · exact ⟨_, _, rfl⟩
  · exact absurd rfl goesOn
  · exact ⟨_, _, rfl⟩

/-- R110, R113, R114: TRIG, REL and a wait that does not end in IDLE write `st` and `tcnt` alone. -/
theorem opBlock_frame {i : Instr} (p : Params) (x : Pins) (b : Block)
    (hi : i ∈ [Instr.trig, .rel, .hsAck, .hsRise, .hsFall, .bitRise, .bitFall])
    (goesOn : (opBlock i p x b).st ≠ .idle ∨ i = .trig ∨ i = .rel) :
    ∃ st n, opBlock i p x b = { b with st := st, tcnt := n } := by
  simp only [List.mem_cons, List.not_mem_nil, or_false] at hi
  rcases hi with rfl | rfl | hi
  · simp only [opBlock, trigOp]
    split <;> exact ⟨_, _, rfl⟩
  · exact ⟨_, _, rfl⟩
  · rcases hi with rfl | rfl | rfl | rfl | rfl <;>
      exact wait_frame (goesOn.resolve_right (by decide))

/-- Settles O41: `opBlock_frame`. -/
theorem unfinishedOperationsKeepFrameAndResults :
    Obligations.UnfinishedOperationsKeepFrameAndResults := by
  intro s t i hi performed goesOn
  rw [exec_eq_clocked] at performed
  obtain ⟨_, rfl⟩ := clocked_next performed
  obtain ⟨st, n, block⟩ := opBlock_frame s.build s.pins s.toBlock hi goesOn
  simp only [block, and_self]

/-! ## Errors -/

/-- The edge from `s` raises the error `e`: the last sample of a wait for it does not show the level, or
CHECK does not accept the frame (60_exceptions.md R160). -/
def Raises (s : State) (e : ErrKind) : Prop :=
  (∃ w, waitOf s.build s.bitcnt s.st = some w ∧ s.pins.line ≠ w.level
      ∧ s.tcnt.toNat + 1 = w.limit ∧ w.err = e)
    ∨ (s.st = .check ∧ checksumOK s.sr = false ∧ e = .checksumFailed)

/-- R160, R161: a step keeps the outcome code, clears it, or raises an error and ends the read. -/
theorem step_err_cases {s t : State} (next : step s = .next t) :
    t.err = s.err ∨ t.err = errNone
      ∨ ∃ e, Raises s e ∧ t.err = errCode e ∧ t.st = .idle ∧ t.done = true := by
  obtain ⟨legal, -⟩ := step_next next
  rcases step_cases next with ⟨_, e⟩ | ⟨_, e⟩ | e | own
  · rw [e]; exact .inr (.inl rfl)
  · rw [e]; exact .inr (.inl rfl)
  · rw [e]; exact .inl rfl
  · generalize t.toBlock = b' at own ⊢
    cases own with
    | idle | trigEnd | trigCount | rel | seen | waiting | delay | sample | unused => exact .inl rfl
    | valid => exact .inr (.inl rfl)
    | invalid check mismatch =>
      exact .inr (.inr ⟨_, .inr ⟨check, mismatch, rfl⟩, rfl, rfl, rfl⟩)
    | exhausted w hw unseen last =>
      obtain ⟨positive, -⟩ := waitOf_limit legal hw
      exact .inr (.inr ⟨_, .inl ⟨w, hw, unseen, by omega, rfl⟩, rfl, rfl, rfl⟩)

/-- R73: the outcome codes of the three errors differ. -/
theorem errCode_injective {e e' : ErrKind} (h : errCode e = errCode e') : e = e' := by
  revert h
  cases e <;> cases e' <;> decide

/-- R160: a step whose outcome code is newly an error's raises that error. -/
theorem raises_of_step {s t : State} (next : step s = .next t) {e : ErrKind} (code : t.err = errCode e)
    (new : s.err ≠ errCode e) : Raises s e := by
  rcases step_err_cases next with kept | cleared | ⟨e', raises, code', -⟩
  · exact absurd (kept.symm.trans code) new
  · exact absurd (code.symm.trans cleared) (errCode_ne_errNone e)
  · rwa [errCode_injective (code.symm.trans code')]

/-- R115: the wait that raises NoResponse is HS_ACK's. -/
theorem waitOf_of_noResponse {p : Params} {n : BitCount} {st : St} {w : WaitFor}
    (hw : waitOf p n st = some w) (err : w.err = .noResponse) :
    st = .hsAck ∧ w.limit = p.hsTimeoutUs ∧ w.level = false := by
  cases st <;> cases hw
  case hsAck => exact ⟨rfl, rfl, rfl⟩
  all_goals cases err

/-- R116, R117, R130, R132: the waits that raise Timeout, by the level they await. -/
theorem waitOf_of_timeout {p : Params} {n : BitCount} {st : St} {w : WaitFor}
    (hw : waitOf p n st = some w) (err : w.err = .timeout) :
    w.limit = p.edgeTimeoutUs
      ∧ (((st = .hsRise ∨ st = .bitRise) ∧ w.level = true)
        ∨ ((st = .hsFall ∨ st = .bitFall) ∧ w.level = false)) := by
  cases st <;> cases hw
  case hsAck => cases err
  all_goals simp

/-- R160: no wait raises ChecksumFailed. -/
theorem waitOf_err_ne_checksumFailed {p : Params} {n : BitCount} {st : St} {w : WaitFor}
    (hw : waitOf p n st = some w) : w.err ≠ .checksumFailed := by
  cases st <;> cases hw <;> exact nofun

/-- R115, R160: NoResponse is HS_ACK's, at its last sample, high. -/
theorem Raises.noResponse {s : State} (raises : Raises s .noResponse) :
    s.st = .hsAck ∧ s.tcnt.toNat + 1 = s.build.hsTimeoutUs ∧ s.pins.line = true := by
  rcases raises with ⟨w, hw, unseen, last, err⟩ | ⟨_, _, err⟩
  · obtain ⟨st, limit, level⟩ := waitOf_of_noResponse hw err
    exact ⟨st, last.trans limit, Bool.eq_true_of_not_eq_false (level ▸ unseen)⟩
  · cases err

/-- R116, R117, R130, R132, R160: Timeout is raised by four waits, at their last sample, which does not
show the level awaited. -/
theorem Raises.timeout {s : State} (raises : Raises s .timeout) :
    s.tcnt.toNat + 1 = s.build.edgeTimeoutUs
      ∧ (((s.st = .hsRise ∨ s.st = .bitRise) ∧ s.pins.line = false)
        ∨ ((s.st = .hsFall ∨ s.st = .bitFall) ∧ s.pins.line = true)) := by
  rcases raises with ⟨w, hw, unseen, last, err⟩ | ⟨_, _, err⟩
  · obtain ⟨limit, ⟨st, level⟩ | ⟨st, level⟩⟩ := waitOf_of_timeout hw err <;> rw [level] at unseen
    · exact ⟨last.trans limit, .inl ⟨st, Bool.eq_false_of_not_eq_true unseen⟩⟩
    · exact ⟨last.trans limit, .inr ⟨st, Bool.eq_true_of_not_eq_false unseen⟩⟩
  · cases err

/-- R140, R160: ChecksumFailed is raised by CHECK at a mismatch. -/
theorem Raises.checksumFailed {s : State} (raises : Raises s .checksumFailed) :
    s.st = .check ∧ checksumOK s.sr = false := by
  rcases raises with ⟨w, hw, -, -, err⟩ | ⟨check, mismatch, -⟩
  · exact absurd err (waitOf_err_ne_checksumFailed hw)
  · exact ⟨check, mismatch⟩

/-- Settles O37: what a step does to the outcome code, and who raises each of the three errors. -/
theorem onlyTheNamedStatesRaiseErrors : Obligations.OnlyTheNamedStatesRaiseErrors := by
  refine ⟨⟨rfl, rfl, rfl⟩, fun s t next => ⟨fun error changed => ?ends, fun code new => ?noResponse,
    fun code new => ?timeout, fun code new => ?checksumFailed⟩⟩
  case ends =>
    rcases step_err_cases next with kept | cleared | ⟨_, -, -, idle, done⟩
    · exact absurd kept changed
    · exact absurd cleared error
    · exact ⟨idle, done⟩
  case noResponse => exact (raises_of_step next (e := .noResponse) code new).noResponse
  case timeout => exact (raises_of_step next (e := .timeout) code new).timeout
  case checksumFailed => exact (raises_of_step next (e := .checksumFailed) code new).checksumFailed

end Sys2Proof.Machine
end

section
/-!
Runs of undisturbed edges on which the line shows given levels: how they are put together, what the
trigger, the waits and the delay do on them (41_handshake.md R110, R113; 42_bit_sampler.md R131), and the
obligations about one wait, one bit and a read without an answer.
-/

namespace Sys2Proof.Machine

/-! ## The bounded wait over its samples -/

/-- R110: a wait entered with `tcnt = 0` holds the count `j` after `j` samples without its level, up to
its last count. -/
theorem edges_wait_counts {s : State} {w : WaitFor} (legal : s.build.legal = true)
    (hw : waitOf s.build s.bitcnt s.st = some w) (zero : s.tcnt = 0#16) {j : Nat} (hj : j < w.limit)
    (enabled : Undisturbed s j) (unseen : ∀ i < j, (s.pinsAt i).line ≠ w.level) :
    ∃ t, edges j s = .next t ∧ t.toBlock = { s.toBlock with tcnt := BitVec.ofNat 16 j } := by
  obtain ⟨positive, fits, busyState, -⟩ := waitOf_limit legal hw
  have counts : ∀ i < j, ∀ b : Block, b = { s.toBlock with tcnt := s.tcnt + BitVec.ofNat 16 i } →
      ownOp s.build (s.pinsAt i).line b = countTick b := by
    intro i hi b hb
    have held : waitOf s.build b.bitcnt b.st = some w := by rw [hb]; exact hw
    have notLast : b.tcnt.toNat + 1 ≠ w.limit := by
      rw [hb, zero, BitVec.zero_add, BitVec.toNat_ofNat, Nat.mod_eq_of_lt (by omega)]
      omega
    rw [waitOf_own _ _ w b _ held rfl, wait_eq positive, if_neg (unseen i hi), if_neg notLast]
  obtain ⟨t, run, block⟩ := edges_count legal j enabled busyState counts
  exact ⟨t, run, by rw [block, zero, BitVec.zero_add]⟩

/-- R110: the sample that shows the level, the `limit`-th at the latest, ends the wait. -/
theorem edges_wait_sees {s : State} {w : WaitFor} (legal : s.build.legal = true)
    (hw : waitOf s.build s.bitcnt s.st = some w) (zero : s.tcnt = 0#16) {j : Nat} (hj : j < w.limit)
    (enabled : Undisturbed s (j + 1)) (unseen : ∀ i < j, (s.pinsAt i).line ≠ w.level)
    (seen : (s.pinsAt j).line = w.level) :
    ∃ t, edges (j + 1) s = .next t ∧ t.toBlock = enter w.next s.toBlock := by
  obtain ⟨t, run, block⟩ :=
    edges_wait_counts legal hw zero hj (fun i hi => enabled i (by omega)) unseen
  obtain ⟨u, run', own⟩ := edges_own legal run (enabled j (by omega))
    (by rw [block]; exact waitOf_ne_idle hw)
  refine ⟨u, run', ?_⟩
  rw [own, ownOp_seen (w := w) (by rw [block]; exact hw) seen, block]
  rfl

/-- R110: a wait none of whose samples shows the level raises its error at the `limit`-th. -/
theorem edges_wait_fails {s : State} {w : WaitFor} (legal : s.build.legal = true)
    (hw : waitOf s.build s.bitcnt s.st = some w) (zero : s.tcnt = 0#16)
    (enabled : Undisturbed s w.limit) (unseen : ∀ i < w.limit, (s.pinsAt i).line ≠ w.level) :
    ∃ t, edges w.limit s = .next t ∧ t.toBlock = raiseError w.err s.toBlock := by
  obtain ⟨positive, fits, busyState, -⟩ := waitOf_limit legal hw
  obtain ⟨n, hn⟩ : ∃ n, w.limit = n + 1 := Nat.exists_eq_add_of_le' positive
  obtain ⟨t, run, block⟩ := edges_wait_counts legal hw zero (j := n) (by omega)
    (fun i hi => enabled i (by omega)) (fun i hi => unseen i (by omega))
  obtain ⟨u, run', own⟩ := edges_own legal run (enabled n (by omega)) (by rw [block]; exact busyState)
  have last : t.tcnt.toNat + 1 = w.limit := by
    rw [block, BitVec.toNat_ofNat, Nat.mod_eq_of_lt (by omega), hn]
  refine ⟨u, by rw [hn]; exact run', ?_⟩
  rw [own, ownOp_exhausted (w := w) (by rw [block]; exact hw) positive (unseen n (by omega)) last, block]
  rfl

/-- Settles O23: the first sample that shows the level ends the wait, and without one the last raises the
error, whose code R73 gives. -/
theorem waitMakesAtMostLimitSamples : Obligations.WaitMakesAtMostLimitSamples := by
  refine fun s w legal hw zero enabled => ⟨fun j hj unseen seen => ?seen, fun unseen => ?fails⟩
  case seen =>
    exact edges_wait_sees legal hw zero hj (fun i hi => enabled i (by omega)) unseen seen
  case fails =>
    obtain ⟨t, run, block⟩ := edges_wait_fails legal hw zero enabled unseen
    refine ⟨t, run, block.trans ?_⟩
    cases err : w.err <;> rfl

/-! ## Levels on the line -/

/-- The coming edges are enabled ones without reset, and the line shows the levels `ls` at them. -/
def Shows (s : State) (ls : List Level) : Prop :=
  ∀ j l, ls[j]? = some l →
    (s.pinsAt j).rst = false ∧ (s.pinsAt j).tick = true ∧ (s.pinsAt j).line = l

/-- Edges that show levels are undisturbed. -/
theorem Shows.undisturbed {s : State} {ls : List Level} (shows : Shows s ls) :
    Undisturbed s ls.length := by
  intro j hj
  obtain ⟨hrst, htick, -⟩ := shows j ls[j] (List.getElem?_eq_getElem hj)
  exact ⟨hrst, htick⟩

/-- What a line shows, it shows up to any earlier edge. -/
theorem Shows.of_isPrefix {s : State} {ls ls' : List Level} (shows : Shows s ls') (le : ls <+: ls') :
    Shows s ls := by
  obtain ⟨rest, rfl⟩ := le
  intro j l hj
  have inFront : j < ls.length := (List.getElem?_eq_some_iff.1 hj).1
  exact shows j l ((List.getElem?_append_left inFront).trans hj)

/-- After the first levels, the line shows the rest. -/
theorem Shows.rest {s t : State} {ls ls' : List Level} (shows : Shows s (ls ++ ls'))
    (run : edges ls.length s = .next t) : Shows t ls' := by
  intro j l hj
  rw [(edges_pinsAt run).2 j]
  refine shows _ l ?_
  rw [List.getElem?_append_right (Nat.le_add_right _ _), Nat.add_sub_cancel_left]
  exact hj

/-- Undisturbed edges show some levels. -/
theorem exists_shows {s : State} {n : Nat} (enabled : Undisturbed s n) :
    ∃ ls, ls.length = n ∧ Shows s ls := by
  refine ⟨(List.range n).map fun j => (s.pinsAt j).line, by simp, fun j l hj => ?_⟩
  obtain ⟨hlt, rfl⟩ := List.getElem?_eq_some_iff.1 hj
  have hjn : j < n := by simpa using hlt
  obtain ⟨hrst, htick⟩ := enabled j hjn
  exact ⟨hrst, htick, by simp⟩

/-- Undisturbed edges, at least one of them, show some levels, the last of which is the last edge's. -/
theorem exists_shows_concat {s : State} {n : Nat} (enabled : Undisturbed s (n + 1)) :
    ∃ ls l, ls.length = n ∧ Shows s (ls ++ [l]) := by
  obtain ⟨ls, length, shows⟩ := exists_shows enabled
  rcases List.eq_nil_or_concat' ls with rfl | ⟨init, last, rfl⟩
  · cases length
  · exact ⟨init, last, by simpa using length, shows⟩

/-- Levels told edge by edge, from the edge at which a run ended. -/
theorem shows_after {s t : State} {n : Nat} {ls : List Level} (run : edges n s = .next t)
    (enabled : Undisturbed s (n + ls.length))
    (lines : ∀ j < ls.length, (s.pinsAt (n + j)).line = ls.getD j true) : Shows t ls := by
  intro j l hj
  obtain ⟨hlt, rfl⟩ := List.getElem?_eq_some_iff.1 hj
  obtain ⟨hrst, htick⟩ := enabled (n + j) (by omega)
  rw [(edges_pinsAt run).2 j]
  exact ⟨hrst, htick, (lines j hlt).trans (List.getD_eq_getElem ls true hlt)⟩

/-- On every run of a build on which the line shows `ls`, the block `b` is busy before each of these edges
and is `b'` after them. -/
def Leads (p : Params) (b : Block) (ls : List Level) (b' : Block) : Prop :=
  ∀ s : State, s.build = p → s.toBlock = b → Shows s ls →
    (∀ j < ls.length, ∃ u, edges j s = .next u ∧ busy u.toBlock = true)
      ∧ ∃ t, edges ls.length s = .next t ∧ t.toBlock = b'

theorem Leads.nil (p : Params) (b : Block) : Leads p b [] b :=
  fun s _ block _ => ⟨fun _ hj => absurd hj (Nat.not_lt_zero _), s, rfl, block⟩

/-- Runs are put together at the block between them. -/
theorem Leads.append {p : Params} {b c d : Block} {ls ls' : List Level} (first : Leads p b ls c)
    (second : Leads p c ls' d) : Leads p b (ls ++ ls') d := by
  intro s build block shows
  obtain ⟨busy₁, t, run, between⟩ := first s build block (shows.of_isPrefix ⟨_, rfl⟩)
  obtain ⟨busy₂, u, run', last⟩ :=
    second t ((edges_pinsAt run).1.trans build) between (shows.rest run)
  rw [List.length_append]
  refine ⟨fun j hj => ?_, u, (edges_add run _).trans run', last⟩
  rcases Nat.lt_or_ge j ls.length with inFirst | inSecond
  · exact busy₁ j inFirst
  · obtain ⟨i, rfl⟩ := Nat.exists_eq_add_of_le inSecond
    rw [edges_add run]
    exact busy₂ i (by omega)

/-- R71: one edge outside IDLE performs the state's own operation. -/
theorem Leads.own {p : Params} (legal : p.legal = true) {b : Block} (busyState : b.st ≠ .idle)
    (l : Level) : Leads p b [l] (ownOp p l b) := by
  rintro s rfl rfl shows
  obtain ⟨hrst, htick, line⟩ := shows 0 l rfl
  obtain ⟨t, run, own⟩ := edges_own legal (n := 0) rfl ⟨hrst, htick⟩ busyState
  rw [line] at own
  refine ⟨fun j hj => ⟨s, ?_, (busy_iff _).2 busyState⟩, t, run, own⟩
  rw [Nat.lt_one_iff.1 hj]
  rfl

/-- R113: a TRIG entered with `tcnt = 0` ends in REL after TRIG_TICKS edges, whatever the line shows. -/
theorem Leads.trig {p : Params} (legal : p.legal = true) {b : Block} (trig : b.st = .trig)
    (zero : b.tcnt = 0#16) {ls : List Level} (length : ls.length = p.trigTicks) :
    Leads p b ls (enter .rel b) := by
  rintro s rfl rfl shows
  have enabled := shows.undisturbed
  rw [length] at enabled ⊢
  refine ⟨fun j hj => ?_, edges_trig_ends legal trig zero enabled⟩
  obtain ⟨u, run, block⟩ := edges_trig_counts legal trig zero enabled hj
  exact ⟨u, run, (busy_iff _).2 (by rw [block, trig]; decide)⟩

/-- R131: a BIT_DLY entered with `tcnt = 0` samples the level of its SAMPLE_DELAY_US-th edge. -/
theorem Leads.delay {p : Params} (legal : p.legal = true) {b : Block} (dly : b.st = .bitDly)
    (zero : b.tcnt = 0#16) {ls : List Level} (length : ls.length + 1 = p.sampleDelayUs) (l : Level) :
    Leads p b (ls ++ [l]) (sampleBit l b) := by
  rintro s rfl rfl shows
  have enabled := shows.undisturbed
  obtain ⟨-, -, line⟩ := shows ls.length l List.getElem?_concat_length
  rw [List.length_append, List.length_singleton, length] at enabled ⊢
  obtain ⟨t, run, block⟩ := edges_bitDly_samples legal dly zero enabled
  rw [← length, Nat.add_sub_cancel, line] at block
  refine ⟨fun j hj => ?_, t, run, block⟩
  obtain ⟨u, run', held⟩ := edges_bitDly_held legal dly zero enabled hj
  exact ⟨u, run', (busy_iff _).2 (by rw [held]; decide)⟩

/-- The samples of a wait before its level. -/
theorem Shows.unseen {s : State} {k : Nat} {level : Level} {ls : List Level}
    (shows : Shows s (List.replicate k (!level) ++ ls)) {i : Nat} (hi : i < k) :
    (s.pinsAt i).line ≠ level := by
  obtain ⟨-, -, line⟩ := shows i (!level) (by
    rw [List.getElem?_append_left (by rw [List.length_replicate]; exact hi), List.getElem?_replicate,
      if_pos hi])
  rw [line]
  exact Bool.not_not_eq.2 rfl

/-- R110: before the last sample of a wait, the block is busy. -/
theorem wait_busy {s : State} {w : WaitFor} (legal : s.build.legal = true)
    (hw : waitOf s.build s.bitcnt s.st = some w) (zero : s.tcnt = 0#16) {j : Nat} (hj : j < w.limit)
    (enabled : Undisturbed s j) (unseen : ∀ i < j, (s.pinsAt i).line ≠ w.level) :
    ∃ u, edges j s = .next u ∧ busy u.toBlock = true := by
  obtain ⟨u, run, block⟩ := edges_wait_counts legal hw zero hj enabled unseen
  exact ⟨u, run, (busy_iff _).2 (by rw [block]; exact waitOf_ne_idle hw)⟩

/-- R110: a wait entered with `tcnt = 0` goes on at the first of its `limit` samples that shows the
level. -/
theorem Leads.wait_sees {p : Params} (legal : p.legal = true) {b : Block} (w : WaitFor)
    (hw : waitOf p b.bitcnt b.st = some w) (zero : b.tcnt = 0#16) {k : Nat} (hk : k < w.limit) :
    Leads p b (List.replicate k (!w.level) ++ [w.level]) (enter w.next b) := by
  rintro s rfl rfl shows
  have enabled := shows.undisturbed
  obtain ⟨-, -, seen⟩ := shows k w.level (by
    rw [List.getElem?_append_right (by rw [List.length_replicate]), List.length_replicate, Nat.sub_self]
    rfl)
  rw [List.length_append, List.length_replicate, List.length_singleton] at enabled ⊢
  exact ⟨fun j hj => wait_busy legal hw zero (by omega) (fun i hi => enabled i (by omega))
      fun i hi => shows.unseen (by omega),
    edges_wait_sees legal hw zero hk enabled (fun i hi => shows.unseen hi) seen⟩

/-- R110: a wait entered with `tcnt = 0` raises its error after `limit` samples without the level. -/
theorem Leads.wait_fails {p : Params} (legal : p.legal = true) {b : Block} (w : WaitFor)
    (hw : waitOf p b.bitcnt b.st = some w) (zero : b.tcnt = 0#16) :
    Leads p b (List.replicate w.limit (!w.level)) (raiseError w.err b) := by
  rintro s rfl rfl shows
  have enabled := shows.undisturbed
  have unseen : ∀ i < w.limit, (s.pinsAt i).line ≠ w.level := fun i hi =>
    Shows.unseen (ls := []) (by rw [List.append_nil]; exact shows) hi
  rw [List.length_replicate] at enabled ⊢
  exact ⟨fun j hj => wait_busy legal hw zero hj (fun i hi => enabled i (by omega))
      fun i hi => unseen i (by omega),
    edges_wait_fails legal hw zero enabled unseen⟩

/-! ## One bit -/

/-- R130, R131: from BIT_RISE, a high sample and the SAMPLE_DELAY_US edges after it take the last one's
level for the bit. -/
theorem Leads.bit {p : Params} (legal : p.legal = true) {b : Block} (rise : b.st = .bitRise)
    {ls : List Level} (length : ls.length + 1 = p.sampleDelayUs) (l : Level) :
    Leads p b ([true] ++ (ls ++ [l])) (sampleBit l b) := by
  have hw : waitOf p b.bitcnt b.st = some ⟨true, p.edgeTimeoutUs, .bitDly, .timeout⟩ := by rw [rise]; rfl
  have seen := Leads.own legal (waitOf_ne_idle hw) true
  rw [ownOp_seen hw rfl] at seen
  exact seen.append (Leads.delay legal rfl rfl length l)

/-- Settles O27: `Leads.bit` at the levels that the line happens to show. -/
theorem bitIsTheLevelAfterTheSampleDelay : Obligations.BitIsTheLevelAfterTheSampleDelay := by
  intro s legal rise enabled high
  obtain ⟨-, -, -, -, -, -, positive, -⟩ := limits legal
  obtain ⟨ls, last, length, shows⟩ := exists_shows_concat enabled
  obtain ⟨first, middle, rfl⟩ := List.exists_cons_of_length_pos (length ▸ positive)
  have total : (first :: middle ++ [last]).length = s.build.sampleDelayUs + 1 := by simpa using length
  obtain ⟨-, -, firstLine⟩ := shows 0 first rfl
  obtain ⟨-, -, lastLine⟩ := shows _ last List.getElem?_concat_length
  obtain rfl : first = true := firstLine.symm.trans high
  obtain ⟨-, t, run, block⟩ := Leads.bit legal rise length last s rfl rfl shows
  refine ⟨t, total ▸ run, ?_⟩
  rw [block, ← lastLine, length]
  rfl

/-! ## The beginning of a read -/

/-- The registers at the entry of HS_ACK (41_handshake.md R114): nothing is counted, and no result is
shown. -/
def awaitingAck : Block := { Block.reset with st := .hsAck }

/-- R100, R113, R114: from an accepted START, TRIG and REL come to HS_ACK, whatever the line shows. -/
theorem leads_to_hsAck {p : Params} (legal : p.legal = true) (b : Block) {ls : List Level}
    (length : ls.length = p.trigTicks) (l : Level) :
    Leads p (acceptStart b) (ls ++ [l]) awaitingAck :=
  (Leads.trig legal rfl rfl length).append (Leads.own legal (by simp) l)

/-- R100, R113, R114: an edge that accepts a START is followed by HS_ACK after TRIG_TICKS + 1 more, and
the block is busy from the first of them on. -/
theorem edges_to_hsAck {s : State} (legal : s.build.legal = true) (accepts : Accepts s)
    (enabled : Undisturbed s (2 + s.build.trigTicks)) :
    (∃ t, edges (2 + s.build.trigTicks) s = .next t ∧ t.toBlock = awaitingAck)
      ∧ ∀ j, 0 < j → j < 2 + s.build.trigTicks → ∃ u, edges j s = .next u ∧ busy u.toBlock = true := by
  obtain ⟨t, next, build, pins, block⟩ := exists_step legal
  have run : edges 1 s = .next t := edges_succ next 0
  have started : t.toBlock = acceptStart s.toBlock := block.trans (edgeBlock_accepts accepts)
  obtain ⟨ls, last, length, shows⟩ : ∃ ls l, ls.length = s.build.trigTicks ∧ Shows t (ls ++ [l]) :=
    exists_shows_concat fun j hj => by rw [pins]; exact enabled _ (by omega)
  obtain ⟨busy, u, run', block⟩ := leads_to_hsAck legal s.toBlock length last t build started shows
  rw [List.length_append, List.length_singleton, length] at busy run'
  refine ⟨⟨u, ?_, block⟩, fun j positive hj => ?_⟩
  · rw [show 2 + s.build.trigTicks = 1 + (s.build.trigTicks + 1) by omega, edges_add run, run']
  · obtain ⟨i, rfl⟩ : ∃ i, j = 1 + i := Nat.exists_eq_add_of_le positive
    rw [edges_add run]
    exact busy i (by omega)

/-- Settles O54: HS_ACK is reached by `edges_to_hsAck`, and a line that stays high exhausts its wait. -/
theorem silentSensorEndsInNoResponse : Obligations.SilentSensorEndsInNoResponse := by
  intro s legal accepts enabled silent
  obtain ⟨⟨t, run, block⟩, busy⟩ :=
    edges_to_hsAck legal accepts fun j hj => enabled j (Nat.lt_of_lt_of_le hj (Nat.le_add_right _ _))
  obtain ⟨build, -⟩ := edges_pinsAt run
  have shows : Shows t (List.replicate s.build.hsTimeoutUs true) := by
    refine shows_after run (by rw [List.length_replicate]; exact enabled) fun j hj => ?_
    rw [List.length_replicate] at hj
    rw [List.getD_replicate _ hj]
    exact silent j hj
  obtain ⟨busy', u, run', failed⟩ :=
    Leads.wait_fails legal ⟨false, s.build.hsTimeoutUs, afterAck s.build, .noResponse⟩ rfl rfl
      t build block shows
  rw [List.length_replicate] at busy' run'
  refine ⟨⟨u, (edges_add run _).trans run', failed⟩, fun j positive hj => ?_⟩
  rcases Nat.lt_or_ge j (2 + s.build.trigTicks) with before | after
  · exact busy j positive before
  · obtain ⟨i, rfl⟩ := Nat.exists_eq_add_of_le after
    rw [edges_add run]
    exact busy' i (Nat.lt_of_add_lt_add_left hj)

end Sys2Proof.Machine
end

section
/-!
A frame on the line is the frame captured (42_bit_sampler.md R130 to R134), and the read that reports it
(20_memory.md R60, 43_validate.md R140): pulse by pulse, from the handshake to CHECK.
-/

namespace Sys2Proof.Machine

/-! ## One pulse -/

/-- The registers after a pulse that reads as `v`: the bit is shifted in and counted, and the block waits
for the next pulse, or is in CHECK after the last (42_bit_sampler.md R131, R132). -/
def captureBit (v : Level) (b : Block) : Block := enter (afterFall (b.bitcnt + 1#6)) (sampleBit v b)

/-- R131, R132: the state after a sample of 0 is the state after the fall of a 1. -/
theorem sampleBit_false {b : Block} (room : b.bitcnt.toNat ≤ 39) :
    sampleBit false b = captureBit false b := by
  have next : afterSample false b.bitcnt = afterFall (b.bitcnt + 1#6) := by
    rw [afterFall, bitcnt_succ _ room]
    rfl
  rw [captureBit, enter, ← next]
  rfl

/-- R130: the wait for a rise sees the first high after the low. -/
theorem leads_rise {p : Params} (legal : p.legal = true) {b : Block} (rise : b.st = .bitRise)
    (zero : b.tcnt = 0#16) {low : Nat} (hlow : low < p.edgeTimeoutUs) :
    Leads p b (List.replicate low false ++ [true]) (enter .bitDly b) :=
  Leads.wait_sees legal ⟨true, p.edgeTimeoutUs, .bitDly, .timeout⟩ (by rw [rise]; rfl) zero hlow

/-- R131: a high of at most SAMPLE_DELAY_US intervals is over at the sample, and reads as 0. -/
theorem leads_zero {p : Params} (legal : p.legal = true) {b : Block} (rise : b.st = .bitRise)
    (zero : b.tcnt = 0#16) (room : b.bitcnt.toNat ≤ 39) {low high : Nat} (hlow : low < p.edgeTimeoutUs)
    (positive : 1 ≤ high) (short : high ≤ p.sampleDelayUs) :
    Leads p b (List.replicate low false ++ List.replicate high true
      ++ List.replicate (p.sampleDelayUs + 1 - high) false) (captureBit false b) := by
  obtain ⟨m, rfl⟩ := Nat.exists_eq_add_of_le' positive
  obtain ⟨k, hk⟩ : ∃ k, p.sampleDelayUs = m + k + 1 := ⟨p.sampleDelayUs - m - 1, by omega⟩
  have low_after : p.sampleDelayUs + 1 - (m + 1) = k + 1 := by omega
  have sample := Leads.delay legal (b := enter .bitDly b) rfl rfl
    (ls := List.replicate m true ++ List.replicate k false) (by simp [hk]) false
  have pulse := (leads_rise legal rise zero hlow).append sample
  rw [show sampleBit false (enter .bitDly b) = sampleBit false b from rfl, sampleBit_false room] at pulse
  rw [low_after, List.replicate_succ (n := m), List.replicate_succ' (n := k)]
  simpa using pulse

/-- R131, R132: a longer high is still there at the sample, reads as 1, and ends before the wait for its
fall does. -/
theorem leads_one {p : Params} (legal : p.legal = true) {b : Block} (rise : b.st = .bitRise)
    (zero : b.tcnt = 0#16) {low high : Nat} (hlow : low < p.edgeTimeoutUs)
    (long : p.sampleDelayUs < high) (fits : high ≤ p.sampleDelayUs + p.edgeTimeoutUs) :
    Leads p b (List.replicate low false ++ List.replicate high true ++ List.replicate 1 false)
      (captureBit true b) := by
  obtain ⟨-, -, -, -, -, -, positive, -⟩ := limits legal
  obtain ⟨n, hn⟩ : ∃ n, p.sampleDelayUs = n + 1 := Nat.exists_eq_add_of_le' positive
  obtain ⟨m, rfl⟩ := Nat.exists_eq_add_of_lt long
  have sample := Leads.delay legal (b := enter .bitDly b) rfl rfl
    (ls := List.replicate n true) (by simp [hn]) true
  have fall := Leads.wait_sees legal (b := sampleBit true b)
    ⟨false, p.edgeTimeoutUs, afterFall (b.bitcnt + 1#6), .timeout⟩ rfl rfl (k := m) (by
      show m < p.edgeTimeoutUs
      omega)
  have pulse := ((leads_rise legal rise zero hlow).append sample).append fall
  rw [hn]
  have highs : List.replicate (n + 1 + m + 1) true
      = [true] ++ (List.replicate n true ++ [true]) ++ List.replicate m true := by
    rw [← List.replicate_succ', show n + 1 + m + 1 = 1 + (n + 1) + m by omega, List.replicate_add,
      List.replicate_add]
    rfl
  rw [highs, captureBit]
  simpa using pulse

/-- R133: a pulse that keeps the waits within their limits is captured, with so much of the low after it
as `lowUsed` says. -/
theorem leads_pulse {p : Params} (legal : p.legal = true) {b : Block} (rise : b.st = .bitRise)
    (zero : b.tcnt = 0#16) (room : b.bitcnt.toNat ≤ 39) {low : Nat} {q : Pulse}
    (hlow : low < p.edgeTimeoutUs) (positive : 1 ≤ q.high)
    (fits : q.high ≤ p.sampleDelayUs + p.edgeTimeoutUs) :
    Leads p b (List.replicate low false ++ List.replicate q.high true
      ++ List.replicate (lowUsed p q) false) (captureBit (q.bit p) b) := by
  by_cases long : p.sampleDelayUs < q.high
  · simpa only [lowUsed, Pulse.bit, long, decide_true, if_true] using
      leads_one legal rise zero hlow long fits
  · simpa only [lowUsed, Pulse.bit, long, decide_false, Bool.false_eq_true, if_false] using
      leads_zero legal rise zero room hlow positive (Nat.le_of_not_lt long)

/-! ## Forty pulses -/

/-- The levels of pulses and of the low that ends the last of them. -/
def frameLevels (qs : List Pulse) (tail : Nat) : List Level :=
  pulseLevels qs ++ List.replicate tail false

/-- The frame register after the bits of pulses are shifted in (42_bit_sampler.md R131). -/
def capturedFrame (p : Params) : List Pulse → Frame → Frame
  | [], sr => sr
  | q :: more, sr => capturedFrame p more (shiftIn sr (q.bit p))

theorem frameLevels_cons (q : Pulse) (more : List Pulse) (tail : Nat) :
    frameLevels (q :: more) tail
      = List.replicate q.low false ++ (List.replicate q.high true ++ frameLevels more tail) := by
  simp [frameLevels, pulseLevels]

/-- R135: pulses that fit begin with the low that is used already. -/
theorem frameLevels_eq_low_append {p : Params} {used : Nat} {qs : List Pulse} {tail : Nat}
    (fit : PulsesFit p used qs tail) :
    frameLevels qs tail = List.replicate used false ++ (frameLevels qs tail).drop used := by
  have begins : List.replicate used false <+: frameLevels qs tail := by
    cases qs with
    | nil =>
      obtain ⟨rest, rfl⟩ := Nat.exists_eq_add_of_le (show used ≤ tail from fit)
      exact ⟨List.replicate rest false, List.replicate_append_replicate⟩
    | cons q more =>
      obtain ⟨rest, hrest⟩ := Nat.exists_eq_add_of_le (show used ≤ q.low from And.left fit)
      refine ⟨List.replicate rest false ++ (List.replicate q.high true ++ frameLevels more tail), ?_⟩
      rw [frameLevels_cons, hrest, List.replicate_add, List.append_assoc]
  obtain ⟨rest, h⟩ := begins
  rw [← h, List.drop_left' List.length_replicate]

/-- The registers of CHECK with all 40 bits of a frame in (10_state.md R25, 42_bit_sampler.md R134). -/
def fullFrame (sr : Frame) (b : Block) : Block :=
  { b with st := .check, tcnt := 0#16, bitcnt := 40#6, sr := sr }

@[simp] theorem fullFrame_st (sr : Frame) (b : Block) : (fullFrame sr b).st = .check := rfl

@[simp] theorem fullFrame_bitcnt (sr : Frame) (b : Block) : (fullFrame sr b).bitcnt = 40#6 := rfl

@[simp] theorem fullFrame_sr (sr : Frame) (b : Block) : (fullFrame sr b).sr = sr := rfl

/-- R133, R134: pulses that fit, as many as bits are missing, are captured one by one, and the last leads
to CHECK; `used` intervals of the first low are gone. -/
theorem leads_to_check {p : Params} (legal : p.legal = true) {qs : List Pulse} {tail used : Nat}
    {b : Block} (fit : PulsesFit p used qs tail) (missing : b.bitcnt.toNat + qs.length = 40)
    (st : b.st = afterFall b.bitcnt) (zero : b.tcnt = 0#16) :
    ∃ ls, ls <+: (frameLevels qs tail).drop used ∧
      Leads p b ls (fullFrame (capturedFrame p qs b.sr) b) := by
  induction qs generalizing b used with
  | nil =>
    have full : b.bitcnt = 40#6 := BitVec.eq_of_toNat_eq missing
    have check : b.st = .check := by rw [st, full]; rfl
    refine ⟨[], ⟨_, rfl⟩, ?_⟩
    rw [fullFrame, ← full, ← check, ← zero]
    exact Leads.nil p b
  | cons q more ih =>
    obtain ⟨hused, hlow, positive, fits, fitMore⟩ := fit
    rw [List.length_cons] at missing
    have room : b.bitcnt.toNat ≤ 39 := by omega
    have counted := bitcnt_succ b.bitcnt room
    have rise : b.st = .bitRise := by rw [st]; exact if_neg (by simp only [Config.frameBits]; omega)
    obtain ⟨ls, inRest, leads⟩ := ih (b := captureBit (q.bit p) b) fitMore
      (by show (b.bitcnt + 1#6).toNat + _ = 40; omega) rfl rfl
    refine ⟨_, ?_, (leads_pulse legal rise zero room hlow positive fits).append leads⟩
    obtain ⟨rest, hrest⟩ := inRest
    refine ⟨rest, ?_⟩
    rw [frameLevels_cons, List.drop_append_of_le_length (by simpa using hused), List.drop_replicate,
      frameLevels_eq_low_append fitMore, ← hrest]
    simp

/-! ## The bits of the frame captured -/

/-- R33: shifting a bit in moves the others up by one. -/
theorem shiftIn_getLsbD_succ (sr : Frame) (l : Level) {j : Nat} (hj : j + 1 < 40) :
    (shiftIn sr l).getLsbD (j + 1) = sr.getLsbD j := by
  have : j < 39 := by omega
  simp [shiftIn, this]

/-- R33: the bits held before the pulses stand above theirs. -/
theorem capturedFrame_getLsbD_add (p : Params) (qs : List Pulse) (sr : Frame) {j : Nat}
    (hj : qs.length + j < 40) : (capturedFrame p qs sr).getLsbD (qs.length + j) = sr.getLsbD j := by
  induction qs generalizing sr j with
  | nil => rw [capturedFrame, List.length_nil, Nat.zero_add]
  | cons q more ih =>
    rw [List.length_cons] at hj
    rw [capturedFrame, List.length_cons, Nat.add_assoc, Nat.add_comm 1 j, ih _ (by omega),
      shiftIn_getLsbD_succ _ _ (by omega)]

/-- R50: the bits of the pulses stand in the order they came, the first on top. -/
theorem capturedFrame_getLsbD (p : Params) (qs : List Pulse) (sr : Frame) (length : qs.length ≤ 40)
    (k : Nat) (hk : k < qs.length) :
    (capturedFrame p qs sr).getLsbD (qs.length - 1 - k) = (qs[k]).bit p := by
  induction qs generalizing sr k with
  | nil => cases hk
  | cons q more ih =>
    rw [List.length_cons] at length hk
    rw [capturedFrame, List.length_cons, Nat.add_sub_cancel]
    cases k with
    | zero =>
      have top := capturedFrame_getLsbD_add p more (shiftIn sr (q.bit p)) (j := 0) (by omega)
      exact top.trans (shiftIn_getLsbD_zero _ _)
    | succ k =>
      rw [show more.length - (k + 1) = more.length - 1 - k by omega]
      exact ih _ (by omega) k (by omega)

/-- Settles O28: the forty pulses by `leads_to_check`, their bits by `capturedFrame_getLsbD`. -/
theorem frameOnTheLineIsTheFrameCaptured : Obligations.FrameOnTheLineIsTheFrameCaptured := by
  intro s qs tail legal rise zero noBits _ forty fit enabled lines
  have shows : Shows s (frameLevels qs tail) :=
    shows_after (n := 0) rfl (by rw [Nat.zero_add]; exact enabled)
      fun j hj => by rw [Nat.zero_add]; exact lines j hj
  obtain ⟨ls, inFrame, leads⟩ := leads_to_check legal fit (b := s.toBlock)
    (by rw [noBits, forty]; rfl) (by rw [rise, noBits]; rfl) zero
  obtain ⟨-, t, run, block⟩ := leads s rfl rfl (shows.of_isPrefix inFrame)
  refine ⟨ls.length, t, inFrame.length_le, run, by simp [block], by simp [block], fun k hk => ?_⟩
  rw [block]
  have bits := capturedFrame_getLsbD s.build qs s.sr (Nat.le_of_eq forty) k hk
  rwa [forty] at bits

/-! ## The whole read -/

/-- R60, R115 to R117: the response, the acknowledgment, if the build has a high phase, and the first low
of the first pulse lead from HS_ACK to BIT_RISE. -/
theorem leads_handshake {p : Params} (legal : p.legal = true) {a : Answer} (fits : a.Fits p) :
    Leads p awaitingAck
      (List.replicate a.response true
        ++ (if p.ackHighPhase = 1 then List.replicate a.ackLow false ++ List.replicate a.ackHigh true
          else [])
        ++ [false])
      (enter .bitRise awaitingAck) := by
  obtain ⟨-, response, phases, -⟩ := fits
  have ack := Leads.wait_sees legal (b := awaitingAck)
    ⟨false, p.hsTimeoutUs, afterAck p, .noResponse⟩ rfl rfl response
  by_cases high : p.ackHighPhase = 1
  · obtain ⟨low, lowFits, high', highFits⟩ := phases high
    obtain ⟨k, hk⟩ := Nat.exists_eq_add_of_le' low
    obtain ⟨m, hm⟩ := Nat.exists_eq_add_of_le' high'
    rw [show afterAck p = .hsRise from if_pos high] at ack
    have rise := Leads.wait_sees legal (b := enter .hsRise awaitingAck)
      ⟨true, p.edgeTimeoutUs, .hsFall, .timeout⟩ rfl rfl (k := k) (by show k < p.edgeTimeoutUs; omega)
    have fall := Leads.wait_sees legal (b := enter .hsFall awaitingAck)
      ⟨false, p.edgeTimeoutUs, .bitRise, .timeout⟩ rfl rfl (k := m) (by show m < p.edgeTimeoutUs; omega)
    have all := (ack.append rise).append fall
    rw [show enter .bitRise (enter .hsFall awaitingAck) = enter .bitRise awaitingAck from rfl] at all
    simpa [high, hk, hm, List.replicate_succ] using all
  · rw [show afterAck p = .bitRise from if_neg high] at ack
    simpa [high] using ack

/-- R60: an answer that fits leads from HS_ACK to CHECK with the frame its pulses say. -/
theorem leads_answer {p : Params} (legal : p.legal = true) {a : Answer} (fits : a.Fits p) :
    ∃ ls, ls <+: a.levels p ∧ Leads p awaitingAck ls
      (fullFrame (capturedFrame p a.pulses 0#40) awaitingAck) := by
  have ⟨forty, _, _, fit⟩ := fits
  obtain ⟨ls, ⟨rest, hrest⟩, frame⟩ := leads_to_check legal fit (b := enter .bitRise awaitingAck)
    (by rw [forty]; rfl) rfl rfl
  refine ⟨_, ⟨rest, ?_⟩, (leads_handshake legal fits).append frame⟩
  have levels : pulseLevels a.pulses ++ List.replicate a.tail false = [false] ++ (ls ++ rest) := by
    rw [hrest]
    exact frameLevels_eq_low_append fit
  rw [Answer.levels, levels]
  simp only [List.append_assoc]

/-- R50: a frame is captured where it has the bits of forty pulses. -/
theorem capturedFrame_eq {p : Params} {qs : List Pulse} (forty : qs.length = 40) (sr : Frame)
    {F : Frame} (bits : ∀ k, ∀ h : k < qs.length, F.getLsbD (39 - k) = (qs[k]).bit p) :
    capturedFrame p qs sr = F := by
  refine BitVec.eq_of_getLsbD_eq fun i hi => ?_
  have captured := capturedFrame_getLsbD p qs sr (Nat.le_of_eq forty) (39 - i) (by omega)
  rw [← bits (39 - i) (by omega), forty, Nat.sub_sub_self (by omega)] at captured
  exact captured

/-- R140: CHECK reports the reading, or the error with the readings kept. -/
theorem checkOp_reports (b : Block) :
    if checksumOK b.sr = true then
      (checkOp b).err = errNone ∧ (checkOp b).hum = decodeHumidity b.sr
        ∧ (checkOp b).temp = decodeTemperature b.sr
    else (checkOp b).err = errCode .checksumFailed ∧ (checkOp b).hum = b.hum
      ∧ (checkOp b).temp = b.temp := by
  by_cases passes : checksumOK b.sr = true
  · rw [if_pos passes, checkOp, if_pos passes]
    exact ⟨rfl, rfl, rfl⟩
  · rw [if_neg passes, checkOp, if_neg passes]
    exact ⟨rfl, rfl, rfl⟩

/-- Settles O55: `edges_to_hsAck`, `leads_answer`, and the edge of CHECK. -/
theorem readReportsTheFrameOnTheLine : Obligations.ReadReportsTheFrameOnTheLine := by
  intro s a F legal accepts fits enabled lines bits
  obtain ⟨⟨t, run, block⟩, -⟩ := edges_to_hsAck legal accepts fun j hj => enabled j
    (by unfold Params.trigTicks at hj; omega)
  have shows : Shows t (a.levels s.build) :=
    shows_after run (fun j hj => enabled j (by unfold Params.trigTicks at hj; omega)) lines
  obtain ⟨ls, inAnswer, leads⟩ := leads_answer legal fits
  have ⟨forty, _⟩ := fits
  rw [capturedFrame_eq forty 0#40 bits] at leads
  obtain ⟨-, u, run', check⟩ := leads t (edges_pinsAt run).1 block (shows.of_isPrefix inAnswer)
  have toCheck : edges (2 + s.build.trigTicks + ls.length) s = .next u := (edges_add run _).trans run'
  have length := inAnswer.length_le
  obtain ⟨v, run'', own⟩ := edges_own legal toCheck
    (enabled _ (by unfold Params.trigTicks; omega)) (by simp [check])
  have checked : v.toBlock = checkOp u.toBlock := by rw [own, check]; rfl
  have frame : u.sr = F := by simp [check]
  obtain ⟨idle, done⟩ := checkOp_completes u.toBlock
  have reports := checkOp_reports u.toBlock
  rw [← checked, frame] at reports
  rw [← checked] at idle done
  obtain ⟨hum, temp⟩ : u.hum = 0#16 ∧ u.temp = 0#16 := by rw [check]; exact ⟨rfl, rfl⟩
  rw [hum, temp] at reports
  exact ⟨_, v, by unfold Params.trigTicks; omega, run'', idle, done, reports⟩

end Sys2Proof.Machine
end

section
/-!
How long a read lasts (60_exceptions.md R163): at most D_MAX edges, by a count of the edges that remain
and that every edge lowers, and at least so many as the shortest successful read, by a count of the edges
that must have passed and that an edge raises by at most one.
-/

namespace Sys2Proof.Machine

/-! ## The longest read -/

/-- The most edges of one bit: its wait for the rise, its delay and its wait for the fall. -/
def longestBit (p : Params) : Nat := 2 * p.edgeTimeoutUs + p.sampleDelayUs

/-- The most edges from the entry of a state, with `n` bits in, to the end of the read (R163). -/
def longestFrom (p : Params) (n : Nat) : St → Nat
  | .trig => p.trigTicks + 1 + p.hsTimeoutUs + 2 * p.ackHighPhase * p.edgeTimeoutUs + 40 * longestBit p + 1
  | .rel => 1 + p.hsTimeoutUs + 2 * p.ackHighPhase * p.edgeTimeoutUs + 40 * longestBit p + 1
  | .hsAck => p.hsTimeoutUs + 2 * p.ackHighPhase * p.edgeTimeoutUs + 40 * longestBit p + 1
  | .hsRise => 2 * p.edgeTimeoutUs + 40 * longestBit p + 1
  | .hsFall => p.edgeTimeoutUs + 40 * longestBit p + 1
  | .bitRise => (40 - n) * longestBit p + 1
  | .bitDly => p.sampleDelayUs + p.edgeTimeoutUs + (40 - (n + 1)) * longestBit p + 1
  | .bitFall => p.edgeTimeoutUs + (40 - n) * longestBit p + 1
  | .check => 1
  | .idle | .illA | .illB | .illC | .illD | .illE | .illF => 0

/-- The most edges that remain of a read (R163). -/
def remaining (p : Params) (b : Block) : Nat := longestFrom p b.bitcnt.toNat b.st - b.tcnt.toNat

/-- R163: the read begun by a START has D_MAX - 1 more edges at most. -/
theorem remaining_acceptStart (p : Params) (b : Block) :
    remaining p (acceptStart b) + 1 = p.dMax := by
  simp only [remaining, acceptStart_st, acceptStart_tcnt, longestFrom, longestBit, Params.dMax,
    BitVec.toNat_ofNat]
  ring_nf
  omega

/-- A bit not yet in has its share of the edges that remain. -/
theorem bits_left_mul {n : Nat} (room : n ≤ 39) (c : Nat) : (40 - n) * c = (40 - (n + 1)) * c + c := by
  rw [← Nat.succ_mul]
  congr 1
  omega

/-- R163: after all samples of a wait there is time for the rest of the read. -/
theorem longestFrom_wait {p : Params} {n : BitCount} {st : St} {w : WaitFor}
    (hw : waitOf p n st = some w) (bits : n.toNat ≤ (bitRange st).2) :
    longestFrom p n.toNat w.next + w.limit ≤ longestFrom p n.toNat st := by
  cases st <;> cases hw
  case hsAck =>
    have some_left : (40 - n.toNat) * longestBit p ≤ 40 * longestBit p :=
      Nat.mul_le_mul_right _ (Nat.sub_le _ _)
    by_cases high : p.ackHighPhase = 1 <;> simp only [high, longestFrom, if_true, if_false] <;> omega
  case hsRise => simp only [longestFrom]; omega
  case hsFall =>
    have some_left : (40 - n.toNat) * longestBit p ≤ 40 * longestBit p :=
      Nat.mul_le_mul_right _ (Nat.sub_le _ _)
    simp only [longestFrom]
    omega
  case bitRise =>
    have := bits_left_mul bits (longestBit p)
    simp only [longestFrom]
    unfold longestBit at *
    omega
  case bitFall =>
    by_cases all : n.toNat = 40 <;> simp only [all, longestFrom, if_true, if_false] <;> omega

/-- R163: after the delay of a bit there is time for the rest of the read. -/
theorem longestFrom_sample (p : Params) (l : Level) (n : BitCount) :
    longestFrom p (n.toNat + 1) (afterSample l n) + p.sampleDelayUs ≤ longestFrom p n.toNat .bitDly := by
  unfold afterSample
  split_ifs <;> simp only [longestFrom] <;> omega

/-- R24, R163: a state of a read may be held for its limit of edges. -/
theorem tickLimit_le_longestFrom (p : Params) {n : Nat} {st : St} (used : usedCode st = true)
    (busyState : st ≠ .idle) (bits : n ≤ (bitRange st).2) : tickLimit p st ≤ longestFrom p n st := by
  cases st
  case idle => exact absurd rfl busyState
  case illA | illB | illC | illD | illE | illF => cases used
  case bitRise =>
    have := bits_left_mul bits (longestBit p)
    simp only [tickLimit, longestFrom]
    unfold longestBit at *
    omega
  all_goals simp only [tickLimit, longestFrom]; omega

/-- Counting a tick takes one edge of those that remain. -/
theorem remaining_countTick {p : Params} {b : Block}
    (left : b.tcnt.toNat < longestFrom p b.bitcnt.toNat b.st) (fits : b.tcnt.toNat + 1 < 2 ^ 16) :
    remaining p (countTick b) < remaining p b := by
  simp only [remaining, countTick_st, countTick_bitcnt, countTick_tcnt, tcnt_succ _ fits]
  omega

/-- R163: in a state of a read, an own operation ends the read or lowers what remains of it. -/
theorem own_ends_or_lowers {s : State} (inv : Inv s) (busyState : s.st ≠ .idle) {l : Level}
    {b : Block} (own : Own s.build l s.toBlock b) :
    (b.st = .idle ∧ b.done = true)
      ∨ (b.st ≠ .idle ∧ remaining s.build b < remaining s.build s.toBlock) := by
  obtain ⟨-, most⟩ := inv.bits
  have below := inv.ticks
  obtain ⟨-, fits⟩ := tickLimit_bounds inv.built s.st
  have left : s.tcnt.toNat < longestFrom s.build s.bitcnt.toNat s.st :=
    Nat.lt_of_lt_of_le below (tickLimit_le_longestFrom _ inv.used busyState most)
  have counts : remaining s.build (countTick s.toBlock) < remaining s.build s.toBlock :=
    remaining_countTick left (by omega)
  cases own with
  | idle idle => exact absurd idle busyState
  | exhausted | valid | invalid => exact .inl ⟨rfl, rfl⟩
  | trigCount | waiting | delay => exact .inr ⟨busyState, counts⟩
  | unused unused =>
    have used := of_decide_eq_true inv.used
    omega
  | trigEnd trig last =>
    refine .inr ⟨nofun, ?_⟩
    obtain ⟨positive, -⟩ := trigTicks_bounds inv.built
    simp only [remaining, enter_st, enter_tcnt, trig, last, longestFrom, BitVec.toNat_ofNat]
    omega
  | rel rel =>
    refine .inr ⟨nofun, ?_⟩
    rw [rel, tickLimit] at below
    simp only [remaining, enter_st, enter_tcnt, rel, longestFrom, BitVec.toNat_ofNat]
    omega
  | seen w hw =>
    refine .inr ⟨waitOf_next_ne_idle hw, ?_⟩
    have limit := waitOf_limit_eq_tickLimit hw
    have rest := longestFrom_wait hw most
    simp only [remaining, enter_st, enter_tcnt, enter_bitcnt, BitVec.toNat_ofNat]
    omega
  | sample dly last =>
    refine .inr ⟨afterSample_ne_idle l s.bitcnt, ?_⟩
    rw [dly] at most
    rw [dly, tickLimit] at below
    have rest := longestFrom_sample s.build l s.bitcnt
    simp only [remaining, bitcnt_succ _ most, dly, BitVec.toNat_ofNat]
    omega

/-- R163: a read ends within the edges that remain of it, and is busy until then. -/
theorem ends_within_remaining (r : Nat) {s : State} (inv : Inv s) (busyState : s.st ≠ .idle)
    (bound : remaining s.build s.toBlock ≤ r) (enabled : Undisturbed s r) :
    ∃ k t, 0 < k ∧ k ≤ r ∧ edges k s = .next t ∧ t.st = .idle ∧ t.done = true
      ∧ ∀ j < k, ∃ u, edges j s = .next u ∧ busy u.toBlock = true := by
  induction r generalizing s with
  | zero =>
    obtain ⟨-, most⟩ := inv.bits
    have left := Nat.lt_of_lt_of_le inv.ticks
      (tickLimit_le_longestFrom s.build inv.used busyState most)
    unfold remaining at bound
    omega
  | succ r ih =>
    have now : ∃ u, edges 0 s = .next u ∧ busy u.toBlock = true := ⟨s, rfl, (busy_iff _).2 busyState⟩
    obtain ⟨t, run, build, pins, block⟩ := exists_step inv.built
    obtain ⟨hrst, htick⟩ := enabled 0 (Nat.succ_pos r)
    have own : Own s.build s.pins.line s.toBlock t.toBlock := by
      rw [block, edgeBlock_own hrst htick busyState]
      exact own_ownOp _ _ _
    rcases own_ends_or_lowers inv busyState own with ⟨idle, done⟩ | ⟨goesOn, lower⟩
    · refine ⟨1, t, Nat.one_pos, by omega, edges_succ run 0, idle, done, fun j hj => ?_⟩
      rwa [Nat.lt_one_iff.1 hj]
    · obtain ⟨k, u, positive, hk, run', idle, done, busy⟩ :=
        ih (everyStepKeepsTheInvariant s t inv run) goesOn (by rw [build]; omega)
          fun j hj => by rw [pins]; exact enabled _ (by omega)
      refine ⟨k + 1, u, by omega, by omega, (edges_succ run k).trans run', idle, done, fun j hj => ?_⟩
      cases j with
      | zero => exact now
      | succ j =>
        rw [edges_succ run]
        exact busy j (by omega)

/-- Settles O53: after the START edge, D_MAX - 1 edges remain at most. -/
theorem everyReadEndsWithinDMax : Obligations.EveryReadEndsWithinDMax := by
  intro s legal accepts enabled
  obtain ⟨t, run, build, pins, block⟩ := exists_step legal
  have started : t.toBlock = acceptStart s.toBlock := block.trans (edgeBlock_accepts accepts)
  have rest := remaining_acceptStart s.build s.toBlock
  obtain ⟨k, u, positive, hk, run', idle, done, busy⟩ :=
    ends_within_remaining (s.build.dMax - 1) (inv_acceptStart (build ▸ legal) started)
      (by rw [started]; nofun) (by rw [build, started]; omega)
      fun j hj => by rw [pins]; exact enabled _ (by omega)
  refine ⟨k + 1, u, by omega, by omega, (edges_succ run k).trans run', idle, done, fun j hj hjk => ?_⟩
  obtain ⟨i, rfl⟩ := Nat.exists_eq_add_of_le' hj
  rw [edges_succ run]
  exact busy i (by omega)

/-! ## The shortest successful read -/

/-- The fewest edges, the START edge counted, after which a state is entered with `n` bits in (R163). -/
def fewestTo (p : Params) (n : Nat) : St → Nat
  | .trig => 1
  | .rel => 1 + p.trigTicks
  | .hsAck => 2 + p.trigTicks
  | .hsRise => 3 + p.trigTicks
  | .hsFall => 4 + p.trigTicks
  | .bitRise | .bitFall | .check => 3 + p.trigTicks + 2 * p.ackHighPhase + n * (1 + p.sampleDelayUs)
  | .bitDly => 4 + p.trigTicks + 2 * p.ackHighPhase + n * (1 + p.sampleDelayUs)
  | .idle | .illA | .illB | .illC | .illD | .illE | .illF => 0

/-- A block that `m` edges of a read may have brought about: enough for its state and count, and for the
shortest successful read if it shows a success. -/
def Within (p : Params) (m : Nat) (b : Block) : Prop :=
  fewestTo p b.bitcnt.toNat b.st + b.tcnt.toNat ≤ m
    ∧ (b.st = .idle → b.done = true → b.err = errNone → p.shortestRead ≤ m)

/-- One more edge leaves enough. -/
theorem Within.succ {p : Params} {m : Nat} {b : Block} (h : Within p m b) : Within p (m + 1) b := by
  obtain ⟨enough, success⟩ := h
  exact ⟨Nat.le_succ_of_le enough, fun a b c => Nat.le_succ_of_le (success a b c)⟩

/-- In a state of a read, the count is what matters. -/
theorem Within.of_busy {p : Params} {m : Nat} {b : Block} (busyState : b.st ≠ .idle)
    (enough : fewestTo p b.bitcnt.toNat b.st + b.tcnt.toNat ≤ m) : Within p m b :=
  ⟨enough, fun idle => absurd idle busyState⟩

/-- Back in IDLE without a success, any number of edges is enough. -/
theorem Within.of_no_success {p : Params} {m : Nat} {b : Block} (idle : b.st = .idle)
    (zero : b.tcnt = 0#16) (noSuccess : ¬ (b.done = true ∧ b.err = errNone)) : Within p m b :=
  ⟨by rw [idle, zero]; exact Nat.zero_le m, fun _ done err => absurd ⟨done, err⟩ noSuccess⟩

/-- R163: a wait goes on after one edge at the earliest. -/
theorem fewestTo_wait {p : Params} (legal : p.legal = true) {n : BitCount} {st : St} {w : WaitFor}
    (hw : waitOf p n st = some w) (bits : n.toNat ≤ (bitRange st).2) :
    fewestTo p n.toNat w.next ≤ fewestTo p n.toNat st + 1 := by
  have := limits legal
  cases st <;> cases hw <;> simp only [bitRange, Nat.le_zero] at bits
  case hsAck =>
    by_cases high : p.ackHighPhase = 1 <;> simp only [high, bits, fewestTo, if_true, if_false] <;> omega
  case hsRise => simp only [fewestTo]; omega
  case hsFall => simp only [fewestTo, bits]; omega
  case bitRise => simp only [fewestTo]; omega
  case bitFall =>
    by_cases all : n.toNat = 40 <;> simp only [all, fewestTo, if_true, if_false] <;> omega

/-- R163: a bit takes one edge for its rise and its delay. -/
theorem fewestTo_sample (p : Params) (l : Level) (n : BitCount) :
    fewestTo p (n.toNat + 1) (afterSample l n) = fewestTo p n.toNat .bitDly + p.sampleDelayUs := by
  have oneMore := Nat.add_one_mul n.toNat (1 + p.sampleDelayUs)
  unfold afterSample
  split_ifs <;> simp only [fewestTo] <;> omega

/-- Counting a tick takes an edge. -/
theorem within_countTick {p : Params} {m : Nat} {b : Block} (h : Within p m b) (busyState : b.st ≠ .idle) :
    Within p (m + 1) (countTick b) := by
  obtain ⟨enough, -⟩ := h
  refine .of_busy busyState ?_
  have counted : (b.tcnt + 1#16).toNat ≤ b.tcnt.toNat + 1 := by
    rw [BitVec.toNat_add]
    exact Nat.mod_le _ _
  simp only [countTick_st, countTick_bitcnt, countTick_tcnt]
  omega

/-- R163: an own operation needs one edge. -/
theorem within_own {s : State} (inv : Inv s) {m : Nat} (h : Within s.build m s.toBlock) {l : Level}
    {b : Block} (own : Own s.build l s.toBlock b) : Within s.build (m + 1) b := by
  obtain ⟨-, most⟩ := inv.bits
  obtain ⟨enough, -⟩ := id h
  cases own with
  | idle => exact h.succ
  | trigCount trig => exact within_countTick h (by rw [trig]; decide)
  | delay dly => exact within_countTick h (by rw [dly]; decide)
  | waiting w hw => exact within_countTick h (waitOf_ne_idle hw)
  | exhausted w => exact .of_no_success rfl rfl fun ⟨_, err⟩ => errCode_ne_errNone w.err err
  | invalid => exact .of_no_success rfl rfl fun ⟨_, err⟩ => errCode_ne_errNone .checksumFailed err
  | unused unused =>
    have used := of_decide_eq_true inv.used
    omega
  | trigEnd trig last =>
    refine .of_busy nofun ?_
    simp only [trig, last, enter_st, enter_tcnt, fewestTo, BitVec.toNat_ofNat] at enough ⊢
    omega
  | rel rel =>
    refine .of_busy nofun ?_
    simp only [rel, enter_st, enter_tcnt, fewestTo, BitVec.toNat_ofNat] at enough ⊢
    omega
  | seen w hw =>
    refine .of_busy (waitOf_next_ne_idle hw) ?_
    have next := fewestTo_wait inv.built hw most
    simp only [enter_st, enter_bitcnt, enter_tcnt, BitVec.toNat_ofNat]
    omega
  | sample dly last =>
    refine .of_busy (afterSample_ne_idle l s.bitcnt) ?_
    rw [dly] at most enough
    have next := fewestTo_sample s.build l s.bitcnt
    simp only [bitcnt_succ _ most, BitVec.toNat_ofNat]
    omega
  | valid check =>
    obtain ⟨all, -⟩ := inv.check check
    rw [check, all] at enough
    refine ⟨Nat.zero_le _, fun _ _ _ => ?_⟩
    simp only [fewestTo, BitVec.toNat_ofNat] at enough
    unfold Params.shortestRead
    omega

/-- R163: an edge, whatever it does, is one edge. -/
theorem within_step {s t : State} (inv : Inv s) {m : Nat} (h : Within s.build m s.toBlock)
    (next : step s = .next t) : Within t.build (m + 1) t.toBlock := by
  have build : t.build = s.build := by obtain ⟨_, rfl⟩ := step_next next; rfl
  rw [build]
  rcases step_cases next with ⟨_, e⟩ | ⟨_, e⟩ | e | own
  · rw [e]; exact .of_no_success rfl rfl fun ⟨done, _⟩ => nomatch done
  · rw [e]; exact .of_busy nofun (Nat.le_add_left 1 m)
  · rw [e]; exact h.succ
  · exact within_own inv h own

/-- R163: what a block shows after `k` edges, `k` edges may have brought about. -/
theorem within_edges {k : Nat} {s t : State} (inv : Inv s) {m : Nat} (h : Within s.build m s.toBlock)
    (run : edges k s = .next t) : Within t.build (m + k) t.toBlock := by
  induction k generalizing s m with
  | zero => cases run; exact h
  | succ k ih =>
    have next := step_legal inv.built
    rw [edges_succ next] at run
    rw [← Nat.add_assoc, Nat.add_right_comm]
    exact ih (everyStepKeepsTheInvariant s _ inv next) (within_step inv h next) run

/-- R163: no read succeeds after fewer edges than the shortest. -/
theorem shortestRead_le {s t : State} {k : Nat} (legal : s.build.legal = true) (accepts : Accepts s)
    (positive : 0 < k) (run : edges k s = .next t) (idle : t.st = .idle) (done : t.done = true)
    (success : t.err = 0b00#2) : s.build.shortestRead ≤ k := by
  obtain ⟨k, rfl⟩ := Nat.exists_eq_add_of_le' positive
  obtain ⟨u, next, built, -, block⟩ := exists_step legal
  have started : u.toBlock = acceptStart s.toBlock := block.trans (edgeBlock_accepts accepts)
  have first : Within u.build 1 u.toBlock := by rw [started]; exact .of_busy nofun (Nat.le_refl 1)
  obtain ⟨build, -⟩ := edges_pinsAt run
  rw [edges_succ next] at run
  obtain ⟨-, enough⟩ := within_edges (inv_acceptStart (built ▸ legal) started) first run
  calc s.build.shortestRead = t.build.shortestRead := by rw [build]
    _ ≤ 1 + k := enough idle done success
    _ = k + 1 := Nat.add_comm 1 k

/-! ## A shortest read -/

/-- A 0 that takes no longer than it must: it rises at the first sample of its wait, after the low that
the bit before it uses. -/
def quickZero (p : Params) : Pulse := { low := p.sampleDelayUs, high := 1 }

/-- The answer of forty such pulses right after the shortest handshake. -/
def quickAnswer (p : Params) : Answer :=
  { response := 0, ackLow := 1, ackHigh := 1
    pulses := { low := 1, high := 1 } :: List.replicate 39 (quickZero p), tail := p.sampleDelayUs }

/-- R131: after a high of one interval, the low is used up to the sample. -/
theorem lowUsed_one {p : Params} (legal : p.legal = true) (low : Nat) :
    lowUsed p { low := low, high := 1 } = p.sampleDelayUs := by
  obtain ⟨-, -, -, -, -, -, positive, -⟩ := limits legal
  simp only [lowUsed, Pulse.bit, decide_eq_true_eq]
  rw [if_neg (by omega), Nat.add_sub_cancel]

theorem quickZeros_fit {p : Params} (legal : p.legal = true) (n : Nat) :
    PulsesFit p p.sampleDelayUs (List.replicate n (quickZero p)) p.sampleDelayUs := by
  have := limits legal
  induction n with
  | zero => exact Nat.le_refl _
  | succ n ih =>
    rw [List.replicate_succ]
    refine ⟨Nat.le_refl _, ?_, Nat.le_refl 1, ?_, ?_⟩
    · simp only [quickZero]; omega
    · simp only [quickZero]; omega
    · rw [quickZero, lowUsed_one legal]; exact ih

theorem quickAnswer_fits {p : Params} (legal : p.legal = true) : (quickAnswer p).Fits p := by
  have := limits legal
  refine ⟨by simp [quickAnswer], ?_, fun _ => ?_, Nat.le_refl 1, ?_, Nat.le_refl 1, ?_, ?_⟩
  · simp only [quickAnswer]; omega
  · simp only [quickAnswer]; omega
  · simp only; omega
  · simp only; omega
  · rw [lowUsed_one legal]; exact quickZeros_fit legal 39

/-- R133: the answer's bits are all 0. -/
theorem quickAnswer_bits {p : Params} (legal : p.legal = true) {q : Pulse}
    (hq : q ∈ (quickAnswer p).pulses) : q.bit p = false := by
  obtain ⟨-, -, -, -, -, -, positive, -⟩ := limits legal
  have high : q.high = 1 := by
    simp only [quickAnswer, List.mem_cons, List.mem_replicate] at hq
    rcases hq with rfl | ⟨_, rfl⟩ <;> rfl
  rw [Pulse.bit, high]
  exact decide_eq_false (by omega)

theorem pulseLevels_replicate_length (n : Nat) (q : Pulse) :
    (pulseLevels (List.replicate n q)).length = n * (q.low + q.high) := by
  induction n with
  | zero => simp [pulseLevels]
  | succ n ih =>
    rw [List.replicate_succ, pulseLevels, List.length_append, ih, Nat.succ_mul]
    simp only [List.length_append, List.length_replicate]
    omega

/-- R163: with the trigger, CHECK and the START edge, the answer makes a shortest read. -/
theorem quickAnswer_length {p : Params} (legal : p.legal = true) :
    3 + p.triggerLowMs * 1000 + ((quickAnswer p).levels p).length = p.shortestRead := by
  obtain ⟨-, -, -, -, -, -, -, -, phase⟩ := limits legal
  have pulses : (pulseLevels (quickAnswer p).pulses).length = 2 + 39 * (p.sampleDelayUs + 1) := by
    rw [quickAnswer, pulseLevels, List.length_append, pulseLevels_replicate_length]
    rfl
  have handshake : (if p.ackHighPhase = 1 then List.replicate (quickAnswer p).ackLow false
      ++ List.replicate (quickAnswer p).ackHigh true else []).length = 2 * p.ackHighPhase := by
    split_ifs with high
    · rw [high]; rfl
    · rw [show p.ackHighPhase = 0 by omega]; rfl
  simp only [Answer.levels, List.length_append, handshake, pulses, List.length_replicate]
  simp only [quickAnswer, Params.shortestRead, Params.trigTicks]
  omega

/-- A block in its reset state, with START held at the coming edges, whose line shows `ls` from edge
`n` on. -/
def heldStart (p : Params) (n : Nat) (ls : List Level) : State :=
  { State.reset with
    build := p
    sched := (List.range (n + ls.length + 1)).map fun j =>
      { rst := false, tick := true, start := true, line := ls.getD (j - n) true } }

theorem heldStart_pinsAt (p : Params) {n : Nat} (ls : List Level) {j : Nat} (hj : j < n + ls.length + 1) :
    (heldStart p n ls).pinsAt j
      = { rst := false, tick := true, start := true, line := ls.getD (j - n) true } := by
  simp [State.pinsAt, heldStart, List.getD_eq_getElem?_getD, hj]

theorem heldStart_accepts (p : Params) (n : Nat) (ls : List Level) : Accepts (heldStart p n ls) := by
  have pins : (heldStart p n ls).pins = _ := heldStart_pinsAt p ls (Nat.succ_pos _)
  exact ⟨rfl, by rw [pins], by rw [pins], by rw [pins]⟩

/-- R163: for every legal build some read succeeds after no more edges than the shortest. -/
theorem exists_shortest_read {p : Params} (legal : p.legal = true) :
    ∃ s t : State, s.build = p ∧ Accepts s ∧ Undisturbed s p.shortestRead
      ∧ edges p.shortestRead s = .next t ∧ t.st = .idle ∧ t.done = true ∧ t.err = 0b00#2 := by
  have length := quickAnswer_length legal
  obtain ⟨s, hs⟩ : ∃ s, s = heldStart p (2 + p.triggerLowMs * 1000) ((quickAnswer p).levels p) := ⟨_, rfl⟩
  have build : s.build = p := by rw [hs]; rfl
  have accepts : Accepts s := hs ▸ heldStart_accepts p _ _
  have enabled : Undisturbed s p.shortestRead := by
    intro j hj
    rw [hs, heldStart_pinsAt p _ (by omega)]
    exact ⟨rfl, rfl⟩
  obtain ⟨n, t, hn, run, idle, done, reports⟩ :=
    readReportsTheFrameOnTheLine s (quickAnswer p) 0#40 (build ▸ legal) accepts
      (by rw [build]; exact quickAnswer_fits legal) (by rw [build, length]; exact enabled)
      (fun j hj => by
        rw [build] at hj ⊢
        rw [hs, heldStart_pinsAt p _ (by omega), Nat.add_sub_cancel_left])
      (fun k hk => by
        rw [build, quickAnswer_bits legal (List.getElem_mem hk)]
        exact BitVec.getLsbD_zero)
  rw [if_pos (by decide)] at reports
  obtain ⟨success, -⟩ := reports
  have positive : 0 < n := by
    refine Nat.pos_of_ne_zero fun none => ?_
    rw [none] at run
    cases run
    rw [hs] at done
    cases done
  have least := shortestRead_le (build ▸ legal) accepts positive run idle done success
  rw [build] at hn least
  obtain rfl : n = p.shortestRead := by omega
  exact ⟨s, t, build, accepts, enabled, run, idle, done, success⟩

/-- Settles O52: `shortestRead_le`, and `exists_shortest_read`, at the decided values too. -/
theorem shortestSuccessfulRead : Obligations.ShortestSuccessfulRead := by
  refine ⟨fun s k t legal accepts positive short run ⟨idle, done, success⟩ => ?_,
    fun p legal => exists_shortest_read legal, exists_shortest_read (by decide)⟩
  exact Nat.not_lt.2 (shortestRead_le legal accepts positive run idle done success) short

end Sys2Proof.Machine
end
